-- ==== Sys2Proof/Word.lean ====
section
/-! DEFINITION. The bytes and words of the MVM core, and the two mode values its decoder reads:
Width and the decode mode (spec 00_scope.md R10, R12; 10_state.md R26, R28). -/

namespace Sys2Proof

/-- A byte: 8 bits, bit 0 the least significant (R12). Opcodes, stack elements and memory cells. -/
abbrev Byte := BitVec 8

/-- A 64-bit unsigned value: a register, MemoryPointer, or a popped Width-wide value (R12, R21, R32). -/
abbrev Word := BitVec 64

/-- Width `W`: the legal values are 1, 2, 4 and 8 bytes and no other can be held (R10, R26). -/
inductive Width where
  | w1
  | w2
  | w4
  | w8
  deriving DecidableEq, Repr

/-- `W`, the number of bytes (R26). -/
def Width.bytes : Width → Nat
  | .w1 => 1
  | .w2 => 2
  | .w4 => 4
  | .w8 => 8

/-- The 2-bit encoding `w` with `W = 2^w` that R39 gives a hardware model; no instruction shows it. -/
def Width.code : Width → BitVec 2
  | .w1 => 0
  | .w2 => 1
  | .w4 => 2
  | .w8 => 3

/-- The decode mode: Normal reads a byte as an opcode, Escape as a literal payload byte (R28). -/
inductive Mode where
  | normal
  | escape
  deriving DecidableEq, Repr

/-- The 1-bit encoding of R39, 0 for Normal; no instruction shows it. -/
def Mode.code : Mode → BitVec 1
  | .normal => 0
  | .escape => 1

end Sys2Proof
end

