-- ==== Sys2Proof/Config.lean ====
section
/-! DEFINITION. What the spec leaves to the implementation: the parameters of 00_scope.md R9 with the
values the reference takes (decision D3), and the one bound the spec fixes itself (R186). Nothing here is a
free value: the spec leaves no result of an instruction open. -/

namespace Sys2Proof

/-- The parameters of R9 but for the program body, which `Machine.State.prog` holds. The state
carries them (log 2), so that a statement about every state is one about every parameter value. -/
structure Params where
  /-- `MEM_SIZE`: bytes of data memory. -/
  memSize : Nat
  /-- `DSTACK_CAP`: the most bytes the data stack holds. -/
  dstackCap : Nat
  /-- `CSTACK_CAP`: the most bytes the call stack holds. -/
  cstackCap : Nat
  /-- `REG_RESET`: the reset value of each of registers A to H. -/
  regReset : Word
  /-- `MP_RESET`: the reset value of MemoryPointer. -/
  mpReset : Word
  deriving DecidableEq, Repr

/-- The values of the reference implementation, which R9 makes the defaults. -/
def Params.reference : Params where
  memSize := 256
  dstackCap := 65536
  cstackCap := 65536
  regReset := 1
  mpReset := 1

/-- 2^31: a control transfer to this next PC or above raises TargetOutOfRange (R186, decision D4). -/
def targetBound : Nat := 2 ^ 31

end Sys2Proof
end

