-- ==== Sys2Proof/Syntax.lean ====
section
/-! DEFINITION. The instructions: one constructor for each mnemonic of spec/opcode_table.json. The seven
INVALID rows share one constructor that carries the byte. -/

namespace Sys2Proof

/-- The eight registers, A to H for index 0 to 7 (10_state.md R21). -/
inductive Reg where
  | a | b | c | d | e | f | g | h
  deriving DecidableEq, Repr

/-- The instruction set: the Normal-mode opcodes (R97), the Escape-mode actions (R100), and the
invalid opcodes (R98), so that every byte in every mode decodes to one of them (R104). -/
inductive Instr where
  /-- ESC, opcode 0x00: enter Escape mode (R114). -/
  | esc
  /-- PUSHL, opcode 0x01, with the literal bytes `lit[1..W]` that follow it in the stream, `lit[1]` first (R92, R140). -/
  | pushl (lit : List Byte)
  /-- POP, opcode 0x02: discard one byte (R141). -/
  | pop
  /-- CONV, opcode 0x03: decimal conversion (R200). -/
  | conv
  /-- NOP05, opcode 0x05 (R118). -/
  | nop05
  /-- ADD, opcode 0x06 (R180). -/
  | add
  /-- SUB, opcode 0x07 (R181). -/
  | sub
  /-- JNG, opcode 0x08: jump if A is not greater than B (R187). -/
  | jng
  /-- JNE, opcode 0x09: jump if A is not equal to B (R188). -/
  | jne
  /-- NOP0A, opcode 0x0A (R119). -/
  | nop0A
  /-- NOP0B, opcode 0x0B (R120). -/
  | nop0B
  /-- JMP, opcode 0x0C (R189). -/
  | jmp
  /-- CALL, opcode 0x0D (R190). -/
  | call
  /-- HALT, opcode 0x0E (R191). -/
  | halt
  /-- RET, opcode 0x0F (R192). -/
  | ret
  /-- SETP, opcode 0x10: set MemoryPointer (R170). -/
  | setp
  /-- NOP11, opcode 0x11 (R121). -/
  | nop11
  /-- PUSHP, opcode 0x12: push MemoryPointer (R171). -/
  | pushp
  /-- NOP13, opcode 0x13 (R122). -/
  | nop13
  /-- MRB, opcode 0x14: memory-read-block (R172). -/
  | mrb
  /-- MRS, opcode 0x15: memory-read-string (R173). -/
  | mrs
  /-- MWB, opcode 0x16: memory-write-block (R174). -/
  | mwb
  /-- W1, opcode 0x1A: set Width 1 (R142). -/
  | w1
  /-- W2, opcode 0x1B: set Width 2 (R143). -/
  | w2
  /-- W4, opcode 0x1C: set Width 4 (R144). -/
  | w4
  /-- W8, opcode 0x1D: set Width 8 (R145). -/
  | w8
  /-- LOG, opcode 0x1E: debug-log (R201). -/
  | log
  /-- NOP1F, opcode 0x1F (R123). -/
  | nop1F
  /-- ST A, opcode 0x20: store-register A (R150). -/
  | stA
  /-- LD A, opcode 0x21: load-register A (R151). -/
  | ldA
  /-- ST B, opcode 0x22: store-register B (R152). -/
  | stB
  /-- LD B, opcode 0x23: load-register B (R153). -/
  | ldB
  /-- ST C, opcode 0x24: store-register C (R154). -/
  | stC
  /-- LD C, opcode 0x25: load-register C (R155). -/
  | ldC
  /-- ST D, opcode 0x26: store-register D (R156). -/
  | stD
  /-- LD D, opcode 0x27: load-register D (R157). -/
  | ldD
  /-- ST E, opcode 0x28: store-register E (R158). -/
  | stE
  /-- LD E, opcode 0x29: load-register E (R159). -/
  | ldE
  /-- ST F, opcode 0x2A: store-register F (R160). -/
  | stF
  /-- LD F, opcode 0x2B: load-register F (R161). -/
  | ldF
  /-- ST G, opcode 0x2C: store-register G (R162). -/
  | stG
  /-- LD G, opcode 0x2D: load-register G (R163). -/
  | ldG
  /-- ST H, opcode 0x2E: store-register H (R164). -/
  | stH
  /-- LD H, opcode 0x2F: load-register H (R165). -/
  | ldH
  /-- ESC.EXIT, Escape-mode byte 0x00: back to Normal mode (R115). -/
  | escExit
  /-- ESC.ZERO, Escape-mode byte 0xFF: push 0x00 (R116). -/
  | escZero
  /-- ESC.LIT, Escape-mode bytes 0x01 to 0xFE: push the byte (R117). -/
  | escLit (b : Byte)
  /-- INVALID, Normal-mode bytes 0x04, 0x17 to 0x19 and 0x30 to 0xFF (R98, R124). -/
  | invalid (b : Byte)
  deriving DecidableEq, Repr

end Sys2Proof
end

