-- ==== Sys2Proof/Machine/State.lean ====
section
/-! DEFINITION. The execution context of the MVM core as plain data (spec 10_state.md R20), the fault record
(60_exceptions.md R210, R211), the ways a step can stop, and the reset state (70_reset_and_hazards.md R240). -/

namespace Sys2Proof.Machine

/-- The two stacks (R63). -/
inductive StackId where
  /-- The data stack `DS` (R35). -/
  | data
  /-- The call stack `CS` (R36). -/
  | call
  deriving DecidableEq, Repr

/-- The run state (R31). Halted and Faulted are terminal. -/
inductive RunState where
  | running
  | halted
  | faulted
  deriving DecidableEq, Repr

/-- The 2-bit encoding of R39; no instruction shows it. -/
def RunState.code : RunState → BitVec 2
  | .running => 0b00
  | .halted => 0b01
  | .faulted => 0b10

/-- The kind of a fault with the value it records (R211). -/
inductive Cause where
  /-- InvalidOpcode, with the opcode byte (R212). -/
  | invalidOpcode (b : Byte)
  /-- StackOverflow, with the stack that was full (R213). -/
  | stackOverflow (k : StackId)
  /-- StackUnderflow, with the stack that held too few bytes (R214). -/
  | stackUnderflow (k : StackId)
  /-- MemoryFault, with the lowest address outside memory that the access needed (R215). -/
  | memoryFault (addr : Nat)
  /-- TruncatedLiteral, with the `pc` of the 0x01 (R216). -/
  | truncatedLiteral (pc : Nat)
  /-- TargetOutOfRange, with the target (R217). -/
  | targetOutOfRange (target : Nat)
  deriving DecidableEq, Repr

/-- The numeric code of the kind, 3 bits in the fault record (R39, R211). -/
def Cause.code : Cause → BitVec 3
  | .invalidOpcode _ => 1
  | .stackOverflow _ => 2
  | .stackUnderflow _ => 3
  | .memoryFault _ => 4
  | .truncatedLiteral _ => 5
  | .targetOutOfRange _ => 6

/-- The record of the fault that ended a run (R34). -/
structure FaultRecord where
  /-- The kind and its information. -/
  cause : Cause
  /-- The 1-based instruction position: `icount` at the faulting step (R33, R210). -/
  position : Nat
  deriving DecidableEq, Repr

/-- The eight 64-bit registers, none aliasing another and none hard-wired (R21). -/
structure RegFile where
  a : Word
  b : Word
  c : Word
  d : Word
  e : Word
  f : Word
  g : Word
  h : Word
  deriving DecidableEq, Repr

/-- Data memory `M` (R37): the bytes that are not 0x00, by strictly rising address. An address that is
not listed reads as 0x00, the value of every byte at reset. -/
abbrev Memory := List Host.Cell

/-- The state: the twelve elements of R20, and the two read-only parameters of a run, which the host's `step`
has no other place for. Stacks are written top first; the program and the output in stream order. -/
structure State where
  /-- `PROG`, the program body: immutable, a parameter of the step and not architectural state (R44; log 1). -/
  prog : List Byte
  /-- The implementation parameters: never written (R9; log 2). -/
  cfg : Params
  /-- `pc`, the body offset of the opcode byte: a natural number (R22). -/
  pc : Nat
  /-- `x[0..7]`, registers A to H (R21). -/
  regs : RegFile
  /-- `W` (R26). -/
  width : Width
  /-- `mode` (R28). -/
  mode : Mode
  /-- `MP`, MemoryPointer: 64-bit unsigned (R32). -/
  mp : Word
  /-- `DS`, the data stack, top first (R35). -/
  ds : List Byte
  /-- `CS`, the call stack, top first (R36). -/
  cs : List Byte
  /-- `M` (R37). -/
  mem : Memory
  /-- `out`, the bytes emitted, oldest first (R38). -/
  out : List Byte
  /-- `icount`, the count of steps that fetched a byte (R33). -/
  icount : Nat
  /-- `status` (R31). -/
  status : RunState
  /-- `fault`: none, or the record of the fault that ended the run (R34). -/
  fault : Option FaultRecord
  deriving DecidableEq, Repr

/-- Why a step of the host's interface stops. The six faults of the spec are NOT here: the spec says what
raising one does (R210), so an instruction that raises one answers a next state that is Faulted (log 4). -/
inductive Fault where
  /-- Raised by `step` alone, in a state that is Halted or Faulted: a step happens only in Running, and
  both are terminal (R31, R110, R219). Safe: there is no step to be wrong about (log 3). -/
  | runEnded
  deriving DecidableEq, Repr

/-- Why an instruction has no meaning. -/
inductive Refusal where
  /-- Raised by an arm of `exec` whose instruction is not modelled; no arm raises it. Safe. -/
  | notModelled (mnemonic : String)
  deriving DecidableEq, Repr

/-- The state in which a run of the body `prog` starts, for any parameters (R240, R242): the `start`
port of R40. -/
def State.start (cfg : Params) (prog : List Byte) : State where
  prog := prog
  cfg := cfg
  pc := 0
  regs :=
    { a := cfg.regReset, b := cfg.regReset, c := cfg.regReset, d := cfg.regReset
      e := cfg.regReset, f := cfg.regReset, g := cfg.regReset, h := cfg.regReset }
  width := .w1
  mode := .normal
  mp := cfg.mpReset
  ds := []
  cs := []
  mem := []
  out := []
  icount := 0
  status := .running
  fault := none

/-- The machine right after reset, with the reference's parameters and no program loaded (R9, R240; log 1). -/
def State.reset : State :=
  State.start Params.reference []

end Sys2Proof.Machine
end

