-- ==== Sys2Proof/Machine/Ops.lean ====
section
/-! DEFINITION. The named operations over registers, memory, stacks and output (spec 20_memory.md R51 to R63,
R75), and raising a fault (60_exceptions.md R210). -/

namespace Sys2Proof.Machine

/-! ## Raising a fault -/

/-- What a primitive of R13 does: it goes on with a value and a state, or it raises a fault, in the state
as the primitives before it left it. -/
inductive Res (α : Type) where
  | ok (x : α) (s : State)
  | raised (c : Cause) (s : State)
  deriving DecidableEq, Repr

/-- Go on with the next primitive, unless a fault was raised: the step stops at that point (R210, R220). -/
def Res.bind {α β : Type} (r : Res α) (k : α → State → Res β) : Res β :=
  match r with
  | .ok x s => k x s
  | .raised c s => .raised c s

/-- TAKING A FAULT (R210): the run is Faulted and the record holds the cause and the instruction position of this
step, which is `icount`. Nothing else of the step happens; there is no handler, vector or return (R219). -/
def takeFault (c : Cause) (s : State) : State :=
  { s with status := .faulted, fault := some { cause := c, position := s.icount } }

/-- The outcome of an instruction from that of its primitives: the state they leave, or the Faulted one. -/
def finish : Res Unit → Host.Outcome State Fault Refusal
  | .ok () s => .next s
  | .raised c s => .next (takeFault c s)

/-! ## Registers -/

/-- Read register `r` (R13, R21). -/
def RegFile.get (x : RegFile) : Reg → Word
  | .a => x.a
  | .b => x.b
  | .c => x.c
  | .d => x.d
  | .e => x.e
  | .f => x.f
  | .g => x.g
  | .h => x.h

/-- Write register `r`, all 64 bits of it (R13, R21). -/
def RegFile.set (x : RegFile) (r : Reg) (v : Word) : RegFile :=
  match r with
  | .a => { x with a := v }
  | .b => { x with b := v }
  | .c => { x with c := v }
  | .d => { x with d := v }
  | .e => { x with e := v }
  | .f => { x with f := v }
  | .g => { x with g := v }
  | .h => { x with h := v }

/-- Write register `r` of the state. -/
def writeReg (r : Reg) (v : Word) (s : State) : State :=
  { s with regs := s.regs.set r v }

/-! ## The program store and the program counter -/

/-- The program bytes from offset `a` on (R51): empty when `a` is at or past the end. Nothing writes them
(R52). -/
def progFrom (s : State) (a : Nat) : List Byte :=
  s.prog.drop a

/-- `npc <- pc + n`: go on with the byte `n` places on (R22, R110). -/
def advance (n : Nat) (s : State) : State :=
  { s with pc := s.pc + n }

/-- `Goto(t)`: the next PC is `t`, unless it is 2^31 or more (R185, R186). -/
def goto (t : Nat) (s : State) : Res Unit :=
  if targetBound ≤ t then .raised (.targetOutOfRange t) s else .ok () { s with pc := t }

/-! ## Data memory -/

/-- What an address that no entry lists reads as: 0x00, the reset value of every byte (R37). -/
def Memory.unlisted : Byte := 0x00

/-- The byte at address `a`. -/
def Memory.read : Memory → Nat → Byte
  | [], _ => Memory.unlisted
  | (k, v) :: rest, a => if k = a then v else Memory.read rest a

/-- Put the byte `b` at address `a`, keeping the list sorted and free of unlisted values. -/
def Memory.write : Memory → Nat → Byte → Memory
  | [], a, b => if b = Memory.unlisted then [] else [(a, b)]
  | (k, v) :: rest, a, b =>
    if a < k then
      if b = Memory.unlisted then (k, v) :: rest else (a, b) :: (k, v) :: rest
    else if a = k then
      if b = Memory.unlisted then rest else (a, b) :: rest
    else (k, v) :: Memory.write rest a b

/-- The canonical form: addresses strictly rising, and no entry equal to what an unlisted address reads as. -/
def Memory.wf : Memory → Bool
  | [] => true
  | (k, v) :: rest => v != Memory.unlisted && rest.all (fun c => decide (k < c.1)) && Memory.wf rest

/-- `MemRead(a, 1)` (R55). -/
def memRead (a : Nat) (s : State) : Res Byte :=
  if s.cfg.memSize ≤ a then .raised (.memoryFault a) s else .ok (s.mem.read a) s

/-- `MemWrite(a, 1, v)` (R56). -/
def memWrite (a : Nat) (b : Byte) (s : State) : Res Unit :=
  if s.cfg.memSize ≤ a then .raised (.memoryFault a) s else .ok () { s with mem := s.mem.write a b }

/-- The range check that a block access of `n` bytes at MemoryPointer makes before it moves any byte, with the
lowest address outside memory as the recorded value (R172, R174, R215, R220). -/
def checkBlock (n : Nat) (s : State) : Res Unit :=
  if s.cfg.memSize < s.mp.toNat + n then .raised (.memoryFault (max s.mp.toNat s.cfg.memSize)) s
  else .ok () s

/-! ## The stacks -/

/-- The bytes of a stack, top first. -/
def State.stack (s : State) : StackId → List Byte
  | .data => s.ds
  | .call => s.cs

/-- Put a stack's bytes. The other stack is untouched (R63). -/
def State.setStack (s : State) (k : StackId) (bs : List Byte) : State :=
  match k with
  | .data => { s with ds := bs }
  | .call => { s with cs := bs }

/-- The capacity of a stack (R35, R36). -/
def State.stackCap (s : State) : StackId → Nat
  | .data => s.cfg.dstackCap
  | .call => s.cfg.cstackCap

/-- `DPush(b)` and `CPush(b)` (R60). A stack is full when it holds its capacity or more (log 6). -/
def push (k : StackId) (b : Byte) (s : State) : Res Unit :=
  if s.stackCap k ≤ (s.stack k).length then .raised (.stackOverflow k) s
  else .ok () (s.setStack k (b :: s.stack k))

/-- `DPop()` and `CPop()` (R61). -/
def pop (k : StackId) (s : State) : Res Byte :=
  match s.stack k with
  | [] => .raised (.stackUnderflow k) s
  | b :: rest => .ok b (s.setStack k rest)

/-- `DPeek()` (R62), for either stack: the top byte, not removed. -/
def peek (k : StackId) (s : State) : Res Byte :=
  match s.stack k with
  | [] => .raised (.stackUnderflow k) s
  | b :: _ => .ok b s

/-! ## Output -/

/-- `Emit(b)`: append the raw byte to the output stream (R75). -/
def emit (b : Byte) (s : State) : State :=
  { s with out := s.out ++ [b] }

end Sys2Proof.Machine
end

