-- ==== Sys2Proof/Machine/Operands.lean ====
section
/-! DEFINITION. The operand forms: Width-wide values on a stack (spec 20_memory.md R64, R65), runs of bytes,
blocks and strings of memory at MemoryPointer (43_memory_ops.md R172 to R174), Width-wide arithmetic
(44_arithmetic.md R180, R181) and the decimal rendering (46_convert_log.md R202). -/

namespace Sys2Proof.Machine

/-! ## Bytes of a value -/

/-- Byte `i` of a value: `v[8i+7 : 8i]` (R12). -/
def byteOf (v : Word) (i : Nat) : Byte :=
  v.extractLsb' (8 * i) 8

/-- The low `n` bytes of a value in the order `DPushW` pushes them, most significant first (R64). -/
def msbFirst (v : Word) : Nat → List Byte
  | 0 => []
  | n + 1 => byteOf v n :: msbFirst v n

/-- The value of bytes in the order `DPopW` pops them: the first is bits 7:0, the next bits 15:8 (R65). -/
def lsbFirstValue : List Byte → Word
  | [] => 0
  | b :: rest => b.setWidth 64 ||| (lsbFirstValue rest <<< 8)

/-! ## Stack operands -/

/-- Push bytes in the order given: the first ends deepest. -/
def pushAll (k : StackId) : List Byte → State → Res Unit
  | [], s => .ok () s
  | b :: rest, s => (push k b s).bind fun _ s => pushAll k rest s

/-- Pop `n` bytes, in the order popped. -/
def popBytes (k : StackId) : Nat → State → Res (List Byte)
  | 0, s => .ok [] s
  | n + 1, s =>
    (pop k s).bind fun b s => (popBytes k n s).bind fun bs s => .ok (b :: bs) s

/-- `DPushW(W, v)` at the current Width: the low `8W` bits of `v`, least significant byte on top (R64). -/
def pushW (v : Word) (s : State) : Res Unit :=
  pushAll .data (msbFirst v s.width.bytes) s

/-- `DPopW(W)` and `CPopW(W)` at the current Width, zero-extended to 64 bits (R65). -/
def popW (k : StackId) (s : State) : Res Word :=
  (popBytes k s.width.bytes s).bind fun bs s => .ok (lsbFirstValue bs) s

/-! ## Memory operands -/

/-- Push `M[base + n − 1]` down to `M[base]`: the highest offset is pushed first (R172). -/
def pushBlock (base : Nat) : Nat → State → Res Unit
  | 0, s => .ok () s
  | n + 1, s =>
    (memRead (base + n) s).bind fun b s => (push .data b s).bind fun _ s => pushBlock base n s

/-- Pop `n` bytes into memory: the first popped goes to the highest offset, `base + n − 1` (R174). -/
def popBlock (base : Nat) : Nat → State → Res Unit
  | 0, s => .ok () s
  | n + 1, s =>
    (pop .data s).bind fun b s => (memWrite (base + n) b s).bind fun _ s => popBlock base n s

/-- The bytes from address `q` up to the first 0x00, which is not among them, where `n` addresses are left
inside memory; a MemoryFault at the first address outside it when there is no 0x00 (R173). -/
def scanString : Nat → Nat → State → Res (List Byte)
  | 0, q, s => .raised (.memoryFault q) s
  | n + 1, q, s =>
    if s.mem.read q = 0x00 then .ok [] s
    else (scanString n (q + 1) s).bind fun bs s' => .ok (s.mem.read q :: bs) s'

/-! ## Width-wide arithmetic -/

/-- `trunc_W(v) = v mod 2^(8W)` (R13). -/
def truncW (w : Width) (v : Nat) : Nat :=
  v % 2 ^ (8 * w.bytes)

/-- `(x + y) mod 2^(8W)`, from the exact sum (R180). -/
def addW (w : Width) (x y : Word) : Word :=
  BitVec.ofNat 64 (truncW w (x.toNat + y.toNat))

/-- `(x − y) mod 2^(8W)`: the mathematical difference reduced into `[0, 2^(8W))` (R181). -/
def subW (w : Width) (x y : Word) : Word :=
  BitVec.ofNat 64 (((x.toNat : Int) - (y.toNat : Int)) % ((2 ^ (8 * w.bytes) : Nat) : Int)).toNat

/-! ## Decimal rendering -/

/-- The byte of a decimal digit, 0x30 + d (R202). -/
def digitByte (d : Nat) : Byte :=
  BitVec.ofNat 8 (0x30 + d)

/-- The decimal digits of `v`, most significant first, for a value of at most `n` digits. -/
def decDigits : Nat → Nat → List Byte
  | 0, _ => []
  | n + 1, v => if v < 10 then [digitByte v] else decDigits n (v / 10) ++ [digitByte (v % 10)]

/-- `Dec(v)`: the shortest decimal string of an unsigned value below 2^64, which has at most 20 digits
(R202). -/
def dec (v : Nat) : List Byte :=
  decDigits 20 v

end Sys2Proof.Machine
end

