-- ==== Sys2Proof/Machine/Arithmetic.lean ====
section
/-! DEFINITION. Add and subtract, on registers A and B and the data stack (spec 44_arithmetic.md R180 to
R183). -/

namespace Sys2Proof.Machine

/-- ADD, opcode 0x06: push `(x[0] + x[1]) mod 2^(8W)` (R180). -/
def execAdd (s : State) : Host.Outcome State Fault Refusal :=
  finish ((pushW (addW s.width s.regs.a s.regs.b) s).bind fun _ s => .ok () (advance 1 s))

/-- SUB, opcode 0x07: push `(x[0] − x[1]) mod 2^(8W)` (R181). -/
def execSub (s : State) : Host.Outcome State Fault Refusal :=
  finish ((pushW (subW s.width s.regs.a s.regs.b) s).bind fun _ s => .ok () (advance 1 s))

end Sys2Proof.Machine
end

