-- ==== Sys2Proof/Machine/Flags.lean ====
section
/-! DEFINITION. Conditions. The MVM core has no flags, condition codes or predicate registers, so no
instruction computes one (spec 10_state.md R30); a conditional jump compares registers A and B when it executes
(45_control_flow.md R193). -/

namespace Sys2Proof.Machine

/-- `x[0] > x[1]`: the whole 64-bit registers, unsigned, whatever the Width (R187, R193). -/
def aGreaterThanB (s : State) : Bool :=
  decide (s.regs.b.toNat < s.regs.a.toNat)

/-- `x[0] = x[1]`: the whole 64-bit registers (R188, R193). -/
def aEqualsB (s : State) : Bool :=
  decide (s.regs.a = s.regs.b)

end Sys2Proof.Machine
end

