-- ==== Sys2Proof/Machine/ControlFlow.lean ====
section
/-! DEFINITION. Control flow (spec 45_control_flow.md R185 to R192). Targets are absolute body offsets popped
at the current Width; `goto` folds in the increment that follows a transfer (R185). -/

namespace Sys2Proof.Machine

/-- Pop a Width-wide target, and go to it if `taken`, to the next instruction if not. The target is popped on
both paths (R187, R188). -/
def jumpIf (taken : Bool) (s : State) : Res Unit :=
  (popW .data s).bind fun t s => if taken then goto t.toNat s else .ok () (advance 1 s)

/-- JNG, opcode 0x08: jump if not `A > B` (R187). -/
def execJng (s : State) : Host.Outcome State Fault Refusal :=
  finish (jumpIf (!aGreaterThanB s) s)

/-- JNE, opcode 0x09: jump if not `A = B` (R188). -/
def execJne (s : State) : Host.Outcome State Fault Refusal :=
  finish (jumpIf (!aEqualsB s) s)

/-- JMP, opcode 0x0C (R189). -/
def execJmp (s : State) : Host.Outcome State Fault Refusal :=
  finish ((popW .data s).bind fun t s => goto t.toNat s)

/-- CALL, opcode 0x0D: push the low 8 bits of the `pc` of this 0x0D on the call stack, one byte at every
Width, then pop the Width-wide target and go to it (R190). -/
def execCall (s : State) : Host.Outcome State Fault Refusal :=
  finish <| (push .call (BitVec.ofNat 8 s.pc) s).bind fun _ s =>
    (popW .data s).bind fun t s => goto t.toNat s

/-- HALT, opcode 0x0E: the run ends with success and the PC is past the end (R191). -/
def execHalt (s : State) : Host.Outcome State Fault Refusal :=
  .next { s with status := .halted, pc := s.prog.length }

/-- RET, opcode 0x0F: pop a Width-wide value from the call stack and go to the byte after it (R192). -/
def execRet (s : State) : Host.Outcome State Fault Refusal :=
  finish ((popW .call s).bind fun v s => goto (v.toNat + 1) s)

end Sys2Proof.Machine
end

