-- ==== Sys2Proof/Machine/ConvertLog.lean ====
section
/-! DEFINITION. Convert, and debug-log, the one instruction that produces output (spec 46_convert_log.md R200,
R201). -/

namespace Sys2Proof.Machine

/-- CONV, opcode 0x03: pop a Width-wide value and push its decimal digits, the last digit first (R200). -/
def execConv (s : State) : Host.Outcome State Fault Refusal :=
  finish <| (popW .data s).bind fun v s =>
    (pushAll .data (dec v.toNat).reverse s).bind fun _ s => .ok () (advance 1 s)

/-- The loop of debug-log on a data stack of `n` bytes: peek, pop, and stop at a 0x00 or emit the byte and go
on; with no byte left the peek underflows (R201). -/
def logLoop : Nat → State → Res Unit
  | 0, s => .raised (.stackUnderflow .data) s
  | n + 1, s =>
    (peek .data s).bind fun c s =>
      (pop .data s).bind fun _ s => if c = 0x00 then .ok () s else logLoop n (emit c s)

/-- LOG, opcode 0x1E: emit the bytes above the first 0x00 of the data stack, and discard that 0x00. Bytes
emitted before an underflow stay emitted (R201; decision D11). The Width is not read. -/
def execLog (s : State) : Host.Outcome State Fault Refusal :=
  finish ((logLoop s.ds.length s).bind fun _ s => .ok () (advance 1 s))

end Sys2Proof.Machine
end

