-- ==== Sys2Proof/WellFormed.lean ====
section
/-! DEFINITION. Which terms of `Instr` are instructions (spec 30_encoding.md): the operand checks, and the
mode and Width in which the encoding admits the term. -/

namespace Sys2Proof

/-- The 212 Normal-mode bytes that are no opcode: 0x04, 0x17, 0x18, 0x19 and 0x30 to 0xFF (R98). -/
def invalidOpcode (b : Byte) : Bool :=
  b.toNat == 0x04 || (0x17 ≤ b.toNat && b.toNat ≤ 0x19) || 0x30 ≤ b.toNat

/-- The operands are ones some encoding has: a literal of 1, 2, 4 or 8 bytes (R90, R92), an escape
payload byte from 0x01 to 0xFE (R100), an invalid opcode that is one (R98). -/
def Instr.wf : Instr → Bool
  | .esc => true
  | .pushl lit => lit.length == 1 || lit.length == 2 || lit.length == 4 || lit.length == 8
  | .pop => true
  | .conv => true
  | .nop05 => true
  | .add => true
  | .sub => true
  | .jng => true
  | .jne => true
  | .nop0A => true
  | .nop0B => true
  | .jmp => true
  | .call => true
  | .halt => true
  | .ret => true
  | .setp => true
  | .nop11 => true
  | .pushp => true
  | .nop13 => true
  | .mrb => true
  | .mrs => true
  | .mwb => true
  | .w1 => true
  | .w2 => true
  | .w4 => true
  | .w8 => true
  | .log => true
  | .nop1F => true
  | .stA => true
  | .ldA => true
  | .stB => true
  | .ldB => true
  | .stC => true
  | .ldC => true
  | .stD => true
  | .ldD => true
  | .stE => true
  | .ldE => true
  | .stF => true
  | .ldF => true
  | .stG => true
  | .ldG => true
  | .stH => true
  | .ldH => true
  | .escExit => true
  | .escZero => true
  | .escLit b => b != 0x00 && b != 0xFF
  | .invalid b => invalidOpcode b

/-- The mode whose map has the instruction (R97, R100). -/
def Instr.mode : Instr → Mode
  | .esc => .normal
  | .pushl _ => .normal
  | .pop => .normal
  | .conv => .normal
  | .nop05 => .normal
  | .add => .normal
  | .sub => .normal
  | .jng => .normal
  | .jne => .normal
  | .nop0A => .normal
  | .nop0B => .normal
  | .jmp => .normal
  | .call => .normal
  | .halt => .normal
  | .ret => .normal
  | .setp => .normal
  | .nop11 => .normal
  | .pushp => .normal
  | .nop13 => .normal
  | .mrb => .normal
  | .mrs => .normal
  | .mwb => .normal
  | .w1 => .normal
  | .w2 => .normal
  | .w4 => .normal
  | .w8 => .normal
  | .log => .normal
  | .nop1F => .normal
  | .stA => .normal
  | .ldA => .normal
  | .stB => .normal
  | .ldB => .normal
  | .stC => .normal
  | .ldC => .normal
  | .stD => .normal
  | .ldD => .normal
  | .stE => .normal
  | .ldE => .normal
  | .stF => .normal
  | .ldF => .normal
  | .stG => .normal
  | .ldG => .normal
  | .stH => .normal
  | .ldH => .normal
  | .escExit => .escape
  | .escZero => .escape
  | .escLit _ => .escape
  | .invalid _ => .normal

/-- The Width allows the instruction: a literal has exactly `W` bytes (R92); nothing else depends on it. -/
def Instr.fits (w : Width) : Instr → Bool
  | .esc => true
  | .pushl lit => lit.length == w.bytes
  | .pop => true
  | .conv => true
  | .nop05 => true
  | .add => true
  | .sub => true
  | .jng => true
  | .jne => true
  | .nop0A => true
  | .nop0B => true
  | .jmp => true
  | .call => true
  | .halt => true
  | .ret => true
  | .setp => true
  | .nop11 => true
  | .pushp => true
  | .nop13 => true
  | .mrb => true
  | .mrs => true
  | .mwb => true
  | .w1 => true
  | .w2 => true
  | .w4 => true
  | .w8 => true
  | .log => true
  | .nop1F => true
  | .stA => true
  | .ldA => true
  | .stB => true
  | .ldB => true
  | .stC => true
  | .ldC => true
  | .stD => true
  | .ldD => true
  | .stE => true
  | .ldE => true
  | .stF => true
  | .ldF => true
  | .stG => true
  | .ldG => true
  | .stH => true
  | .ldH => true
  | .escExit => true
  | .escZero => true
  | .escLit _ => true
  | .invalid _ => true

/-- The encoding in mode `m` at Width `w` has the instruction (R96, R101). -/
def Instr.wfIn (m : Mode) (w : Width) (i : Instr) : Bool :=
  i.wf && decide (i.mode = m) && i.fits w

end Sys2Proof
end

