-- ==== Sys2Proof/Machine/DecodeLoop.lean ====
section
/-! DEFINITION. The escape toggle and the Escape-mode actions, the six no-operations and the invalid opcodes
(spec 40_decode_loop.md R114 to R124). -/

namespace Sys2Proof.Machine

/-- ESC, opcode 0x00: `mode <- Escape` (R114). -/
def execEsc (s : State) : Host.Outcome State Fault Refusal :=
  .next (advance 1 { s with mode := .escape })

/-- ESC.EXIT, Escape-mode byte 0x00: `mode <- Normal`, nothing pushed (R115). -/
def execEscExit (s : State) : Host.Outcome State Fault Refusal :=
  .next (advance 1 { s with mode := .normal })

/-- ESC.ZERO, Escape-mode byte 0xFF: push 0x00 (R116). -/
def execEscZero (s : State) : Host.Outcome State Fault Refusal :=
  finish ((push .data 0x00 s).bind fun _ s => .ok () (advance 1 s))

/-- ESC.LIT, Escape-mode bytes 0x01 to 0xFE: push the byte, one byte at every Width (R117). -/
def execEscLit (b : Byte) (s : State) : Host.Outcome State Fault Refusal :=
  finish ((push .data b s).bind fun _ s => .ok () (advance 1 s))

/-- NOP05, opcode 0x05: `npc <- pc + 1` (R118). -/
def execNop05 (s : State) : Host.Outcome State Fault Refusal :=
  .next (advance 1 s)

/-- NOP0A, opcode 0x0A: `npc <- pc + 1` (R119). -/
def execNop0A (s : State) : Host.Outcome State Fault Refusal :=
  .next (advance 1 s)

/-- NOP0B, opcode 0x0B: `npc <- pc + 1` (R120). -/
def execNop0B (s : State) : Host.Outcome State Fault Refusal :=
  .next (advance 1 s)

/-- NOP11, opcode 0x11: `npc <- pc + 1` (R121). -/
def execNop11 (s : State) : Host.Outcome State Fault Refusal :=
  .next (advance 1 s)

/-- NOP13, opcode 0x13: `npc <- pc + 1` (R122). -/
def execNop13 (s : State) : Host.Outcome State Fault Refusal :=
  .next (advance 1 s)

/-- NOP1F, opcode 0x1F: `npc <- pc + 1` (R123). -/
def execNop1F (s : State) : Host.Outcome State Fault Refusal :=
  .next (advance 1 s)

/-- INVALID: raise InvalidOpcode with the byte; nothing else changes (R124, R212). -/
def execInvalid (b : Byte) (s : State) : Host.Outcome State Fault Refusal :=
  finish (.raised (.invalidOpcode b) s)

end Sys2Proof.Machine
end

