-- ==== Sys2Proof/Machine/MemoryUnit.lean ====
section
/-! DEFINITION. The Memory Unit (spec 43_memory_ops.md R170 to R174). Every access is at MemoryPointer, which
no access changes; a range check comes before any byte is moved (decisions D9, D17). -/

namespace Sys2Proof.Machine

/-- SETP, opcode 0x10: pop a Width-wide address into MemoryPointer; MemoryFault if it lies outside memory
(R170). -/
def execSetp (s : State) : Host.Outcome State Fault Refusal :=
  finish <| (popW .data s).bind fun a s =>
    if s.cfg.memSize ≤ a.toNat then .raised (.memoryFault a.toNat) s
    else .ok () (advance 1 { s with mp := a })

/-- PUSHP, opcode 0x12: push the low `W` bytes of MemoryPointer (R171). -/
def execPushp (s : State) : Host.Outcome State Fault Refusal :=
  finish ((pushW s.mp s).bind fun _ s => .ok () (advance 1 s))

/-- MRB, opcode 0x14: push `M[MP + W − 1]` down to `M[MP]` (R172). -/
def execMrb (s : State) : Host.Outcome State Fault Refusal :=
  finish <| (checkBlock s.width.bytes s).bind fun _ s =>
    (pushBlock s.mp.toNat s.width.bytes s).bind fun _ s => .ok () (advance 1 s)

/-- MRS, opcode 0x15: push the bytes before the first 0x00 at or after MemoryPointer, the last one first
(R173). The Width is not read. -/
def execMrs (s : State) : Host.Outcome State Fault Refusal :=
  finish <| (scanString (s.cfg.memSize - s.mp.toNat) s.mp.toNat s).bind fun bs s =>
    (pushAll .data bs.reverse s).bind fun _ s => .ok () (advance 1 s)

/-- MWB, opcode 0x16: pop `W` bytes into `M[MP + W − 1]` down to `M[MP]`, which stores a value big-endian
(R174; 90_conflicts.md C1). -/
def execMwb (s : State) : Host.Outcome State Fault Refusal :=
  finish <| (checkBlock s.width.bytes s).bind fun _ s =>
    (popBlock s.mp.toNat s.width.bytes s).bind fun _ s => .ok () (advance 1 s)

end Sys2Proof.Machine
end

