-- ==== Sys2Proof/Machine/Registers.lean ====
section
/-! DEFINITION. The sixteen register transfers (spec 42_registers.md R150 to R165). Each opcode has its own
definition over the two shared ones. -/

namespace Sys2Proof.Machine

/-- Store-register: pop a Width-wide value and write it, zero-extended, to the whole register, so that the
bits above 8W become 0 (R150 and its family; decision D7). -/
def storeReg (r : Reg) (s : State) : Host.Outcome State Fault Refusal :=
  finish ((popW .data s).bind fun v s => .ok () (advance 1 (writeReg r v s)))

/-- Load-register: push the low `W` bytes of the register, most significant first (R151 and its family). -/
def loadReg (r : Reg) (s : State) : Host.Outcome State Fault Refusal :=
  finish ((pushW (s.regs.get r) s).bind fun _ s => .ok () (advance 1 s))

/-- ST A, opcode 0x20 (R150). -/
def execStA (s : State) : Host.Outcome State Fault Refusal :=
  storeReg .a s

/-- LD A, opcode 0x21 (R151). -/
def execLdA (s : State) : Host.Outcome State Fault Refusal :=
  loadReg .a s

/-- ST B, opcode 0x22 (R152). -/
def execStB (s : State) : Host.Outcome State Fault Refusal :=
  storeReg .b s

/-- LD B, opcode 0x23 (R153). -/
def execLdB (s : State) : Host.Outcome State Fault Refusal :=
  loadReg .b s

/-- ST C, opcode 0x24 (R154). -/
def execStC (s : State) : Host.Outcome State Fault Refusal :=
  storeReg .c s

/-- LD C, opcode 0x25 (R155). -/
def execLdC (s : State) : Host.Outcome State Fault Refusal :=
  loadReg .c s

/-- ST D, opcode 0x26 (R156). -/
def execStD (s : State) : Host.Outcome State Fault Refusal :=
  storeReg .d s

/-- LD D, opcode 0x27 (R157). -/
def execLdD (s : State) : Host.Outcome State Fault Refusal :=
  loadReg .d s

/-- ST E, opcode 0x28 (R158). -/
def execStE (s : State) : Host.Outcome State Fault Refusal :=
  storeReg .e s

/-- LD E, opcode 0x29 (R159). -/
def execLdE (s : State) : Host.Outcome State Fault Refusal :=
  loadReg .e s

/-- ST F, opcode 0x2A (R160). -/
def execStF (s : State) : Host.Outcome State Fault Refusal :=
  storeReg .f s

/-- LD F, opcode 0x2B (R161). -/
def execLdF (s : State) : Host.Outcome State Fault Refusal :=
  loadReg .f s

/-- ST G, opcode 0x2C (R162). -/
def execStG (s : State) : Host.Outcome State Fault Refusal :=
  storeReg .g s

/-- LD G, opcode 0x2D (R163). -/
def execLdG (s : State) : Host.Outcome State Fault Refusal :=
  loadReg .g s

/-- ST H, opcode 0x2E (R164). -/
def execStH (s : State) : Host.Outcome State Fault Refusal :=
  storeReg .h s

/-- LD H, opcode 0x2F (R165). -/
def execLdH (s : State) : Host.Outcome State Fault Refusal :=
  loadReg .h s

end Sys2Proof.Machine
end

