-- ==== Sys2Proof/Machine/StackWidth.lean ====
section
/-! DEFINITION. Push-literal, pop-discard and the four set-width opcodes (spec 41_stack_width.md R140 to
R146). -/

namespace Sys2Proof.Machine

/-- PUSHL, opcode 0x01: the fault TruncatedLiteral if fewer than `W` bytes follow the opcode, and otherwise
push the literal bytes as they are, in stream order (R140). -/
def execPushl (lit : List Byte) (s : State) : Host.Outcome State Fault Refusal :=
  finish <|
    if s.prog.length ≤ s.pc + s.width.bytes then .raised (.truncatedLiteral s.pc) s
    else (pushAll .data lit s).bind fun _ s => .ok () (advance (1 + s.width.bytes) s)

/-- POP, opcode 0x02: remove one byte at every Width (R141). -/
def execPop (s : State) : Host.Outcome State Fault Refusal :=
  finish ((pop .data s).bind fun _ s => .ok () (advance 1 s))

/-- W1, opcode 0x1A: `W <- 1`; no data is converted (R142). -/
def execW1 (s : State) : Host.Outcome State Fault Refusal :=
  .next (advance 1 { s with width := .w1 })

/-- W2, opcode 0x1B: `W <- 2`; no data is converted (R143). -/
def execW2 (s : State) : Host.Outcome State Fault Refusal :=
  .next (advance 1 { s with width := .w2 })

/-- W4, opcode 0x1C: `W <- 4`; no data is converted (R144). -/
def execW4 (s : State) : Host.Outcome State Fault Refusal :=
  .next (advance 1 { s with width := .w4 })

/-- W8, opcode 0x1D: `W <- 8`; no data is converted (R145). -/
def execW8 (s : State) : Host.Outcome State Fault Refusal :=
  .next (advance 1 { s with width := .w8 })

end Sys2Proof.Machine
end

