-- ==== Sys2Proof/Machine/Dispatch.lean ====
section
/-! DEFINITION. One arm per instruction, each one call of its meaning (spec 40_decode_loop.md R113). -/

namespace Sys2Proof.Machine

def exec (i : Instr) (s : State) : Host.Outcome State Fault Refusal :=
  match i with
  | .esc => Sys2Proof.Machine.execEsc s
  | .pushl lit => Sys2Proof.Machine.execPushl lit s
  | .pop => Sys2Proof.Machine.execPop s
  | .conv => Sys2Proof.Machine.execConv s
  | .nop05 => Sys2Proof.Machine.execNop05 s
  | .add => Sys2Proof.Machine.execAdd s
  | .sub => Sys2Proof.Machine.execSub s
  | .jng => Sys2Proof.Machine.execJng s
  | .jne => Sys2Proof.Machine.execJne s
  | .nop0A => Sys2Proof.Machine.execNop0A s
  | .nop0B => Sys2Proof.Machine.execNop0B s
  | .jmp => Sys2Proof.Machine.execJmp s
  | .call => Sys2Proof.Machine.execCall s
  | .halt => Sys2Proof.Machine.execHalt s
  | .ret => Sys2Proof.Machine.execRet s
  | .setp => Sys2Proof.Machine.execSetp s
  | .nop11 => Sys2Proof.Machine.execNop11 s
  | .pushp => Sys2Proof.Machine.execPushp s
  | .nop13 => Sys2Proof.Machine.execNop13 s
  | .mrb => Sys2Proof.Machine.execMrb s
  | .mrs => Sys2Proof.Machine.execMrs s
  | .mwb => Sys2Proof.Machine.execMwb s
  | .w1 => Sys2Proof.Machine.execW1 s
  | .w2 => Sys2Proof.Machine.execW2 s
  | .w4 => Sys2Proof.Machine.execW4 s
  | .w8 => Sys2Proof.Machine.execW8 s
  | .log => Sys2Proof.Machine.execLog s
  | .nop1F => Sys2Proof.Machine.execNop1F s
  | .stA => Sys2Proof.Machine.execStA s
  | .ldA => Sys2Proof.Machine.execLdA s
  | .stB => Sys2Proof.Machine.execStB s
  | .ldB => Sys2Proof.Machine.execLdB s
  | .stC => Sys2Proof.Machine.execStC s
  | .ldC => Sys2Proof.Machine.execLdC s
  | .stD => Sys2Proof.Machine.execStD s
  | .ldD => Sys2Proof.Machine.execLdD s
  | .stE => Sys2Proof.Machine.execStE s
  | .ldE => Sys2Proof.Machine.execLdE s
  | .stF => Sys2Proof.Machine.execStF s
  | .ldF => Sys2Proof.Machine.execLdF s
  | .stG => Sys2Proof.Machine.execStG s
  | .ldG => Sys2Proof.Machine.execLdG s
  | .stH => Sys2Proof.Machine.execStH s
  | .ldH => Sys2Proof.Machine.execLdH s
  | .escExit => Sys2Proof.Machine.execEscExit s
  | .escZero => Sys2Proof.Machine.execEscZero s
  | .escLit b => Sys2Proof.Machine.execEscLit b s
  | .invalid b => Sys2Proof.Machine.execInvalid b s

end Sys2Proof.Machine
end

