-- ==== Sys2Proof/Decode.lean ====
section
/-! DEFINITION. The decoder, total in both modes, and after it the encoder (spec 30_encoding.md R90 to R104).
The length of an instruction depends on the mode and the Width, so the decoder takes both (R96, R101). -/

namespace Sys2Proof

/-- Why the decoder answers no instruction. Every byte in every mode decodes (R104), so the one
reason is that there is no byte: the program has ended (R111). -/
inductive Reject where
  /-- No byte is left at the program counter. -/
  | noByte
  deriving DecidableEq, Repr

/-- What the decoder answers: an instruction with the bytes that follow it, or a rejection by name. -/
inductive Decoded where
  | ok (i : Instr) (rest : List Byte)
  | rejected (r : Reject)
  deriving DecidableEq, Repr

/-- The Normal-mode opcode map (R97) on the opcode `b` and the bytes `rest` after it. 0x01 takes the
next `W` bytes as its literal, or as many as are left: the instruction's own rule faults on a short one
(R140). Every byte outside the map is invalid (R98). -/
def decodeNormal (w : Width) (b : Byte) (rest : List Byte) : Decoded :=
  match b.toNat with
  | 0x00 => .ok .esc rest
  | 0x01 => .ok (.pushl (rest.take w.bytes)) (rest.drop w.bytes)
  | 0x02 => .ok .pop rest
  | 0x03 => .ok .conv rest
  | 0x05 => .ok .nop05 rest
  | 0x06 => .ok .add rest
  | 0x07 => .ok .sub rest
  | 0x08 => .ok .jng rest
  | 0x09 => .ok .jne rest
  | 0x0A => .ok .nop0A rest
  | 0x0B => .ok .nop0B rest
  | 0x0C => .ok .jmp rest
  | 0x0D => .ok .call rest
  | 0x0E => .ok .halt rest
  | 0x0F => .ok .ret rest
  | 0x10 => .ok .setp rest
  | 0x11 => .ok .nop11 rest
  | 0x12 => .ok .pushp rest
  | 0x13 => .ok .nop13 rest
  | 0x14 => .ok .mrb rest
  | 0x15 => .ok .mrs rest
  | 0x16 => .ok .mwb rest
  | 0x1A => .ok .w1 rest
  | 0x1B => .ok .w2 rest
  | 0x1C => .ok .w4 rest
  | 0x1D => .ok .w8 rest
  | 0x1E => .ok .log rest
  | 0x1F => .ok .nop1F rest
  | 0x20 => .ok .stA rest
  | 0x21 => .ok .ldA rest
  | 0x22 => .ok .stB rest
  | 0x23 => .ok .ldB rest
  | 0x24 => .ok .stC rest
  | 0x25 => .ok .ldC rest
  | 0x26 => .ok .stD rest
  | 0x27 => .ok .ldD rest
  | 0x28 => .ok .stE rest
  | 0x29 => .ok .ldE rest
  | 0x2A => .ok .stF rest
  | 0x2B => .ok .ldF rest
  | 0x2C => .ok .stG rest
  | 0x2D => .ok .ldG rest
  | 0x2E => .ok .stH rest
  | 0x2F => .ok .ldH rest
  | _ => .ok (.invalid b) rest

/-- The Escape-mode map (R100): 0x00 leaves the mode, 0xFF stands for a zero byte, and every other byte
is itself. -/
def decodeEscape (b : Byte) : Instr :=
  match b.toNat with
  | 0x00 => .escExit
  | 0xFF => .escZero
  | _ => .escLit b

/-- Decode one instruction in mode `m` at Width `w` from the byte `b` and the bytes after it, and answer
it with the bytes that follow it (R104, R113). -/
def decodeByte (m : Mode) (w : Width) (b : Byte) (rest : List Byte) : Decoded :=
  match m with
  | .normal => decodeNormal w b rest
  | .escape => .ok (decodeEscape b) rest

/-- The decoder on any bytes. -/
def decode (m : Mode) (w : Width) : List Byte → Decoded
  | [] => .rejected .noByte
  | b :: rest => decodeByte m w b rest

/-- The bytes of an instruction word whose low `nbits` bits are `x`, in stream order: bit 0 is the least
significant bit of the first byte. Nine bytes, the longest instruction (R90), zeros above `nbits`. -/
def tableBytes (nbits x : Nat) : List Byte :=
  (List.range 9).map fun k => BitVec.ofNat 8 ((x % 2 ^ nbits) / 2 ^ (8 * k))

/-- What the decoder reads from a word of the opcode table in Normal mode at Width 1, the mode and Width
of reset (R241). The three Format E rows share their bytes with Normal-mode rows and differ from them only
by the mode, which a table word does not carry (log 11). -/
def decodeTableWord (nbits w : Nat) : Option Instr :=
  match decode .normal .w1 (tableBytes nbits w) with
  | .ok i _ => some i
  | .rejected _ => none

/-! ## The encoder -/

/-- The bytes of an instruction, in stream order (R91 to R94). -/
def encode : Instr → List Byte
  | .esc => [0x00]
  | .pushl lit => 0x01 :: lit
  | .pop => [0x02]
  | .conv => [0x03]
  | .nop05 => [0x05]
  | .add => [0x06]
  | .sub => [0x07]
  | .jng => [0x08]
  | .jne => [0x09]
  | .nop0A => [0x0A]
  | .nop0B => [0x0B]
  | .jmp => [0x0C]
  | .call => [0x0D]
  | .halt => [0x0E]
  | .ret => [0x0F]
  | .setp => [0x10]
  | .nop11 => [0x11]
  | .pushp => [0x12]
  | .nop13 => [0x13]
  | .mrb => [0x14]
  | .mrs => [0x15]
  | .mwb => [0x16]
  | .w1 => [0x1A]
  | .w2 => [0x1B]
  | .w4 => [0x1C]
  | .w8 => [0x1D]
  | .log => [0x1E]
  | .nop1F => [0x1F]
  | .stA => [0x20]
  | .ldA => [0x21]
  | .stB => [0x22]
  | .ldB => [0x23]
  | .stC => [0x24]
  | .ldC => [0x25]
  | .stD => [0x26]
  | .ldD => [0x27]
  | .stE => [0x28]
  | .ldE => [0x29]
  | .stF => [0x2A]
  | .ldF => [0x2B]
  | .stG => [0x2C]
  | .ldG => [0x2D]
  | .stH => [0x2E]
  | .ldH => [0x2F]
  | .escExit => [0x00]
  | .escZero => [0xFF]
  | .escLit b => [b]
  | .invalid b => [b]

/-- The assembler spelling of an instruction, and the operand bytes written after it (R102). -/
def asmText : Instr → String × List Byte
  | .esc => ("esc", [])
  | .pushl lit => ("pushl", lit)
  | .pop => ("pop", [])
  | .conv => ("conv", [])
  | .nop05 => ("nop05", [])
  | .add => ("add", [])
  | .sub => ("sub", [])
  | .jng => ("jng", [])
  | .jne => ("jne", [])
  | .nop0A => ("nop0a", [])
  | .nop0B => ("nop0b", [])
  | .jmp => ("jmp", [])
  | .call => ("call", [])
  | .halt => ("halt", [])
  | .ret => ("ret", [])
  | .setp => ("setp", [])
  | .nop11 => ("nop11", [])
  | .pushp => ("pushp", [])
  | .nop13 => ("nop13", [])
  | .mrb => ("mrb", [])
  | .mrs => ("mrs", [])
  | .mwb => ("mwb", [])
  | .w1 => ("w1", [])
  | .w2 => ("w2", [])
  | .w4 => ("w4", [])
  | .w8 => ("w8", [])
  | .log => ("log", [])
  | .nop1F => ("nop1f", [])
  | .stA => ("st a", [])
  | .ldA => ("ld a", [])
  | .stB => ("st b", [])
  | .ldB => ("ld b", [])
  | .stC => ("st c", [])
  | .ldC => ("ld c", [])
  | .stD => ("st d", [])
  | .ldD => ("ld d", [])
  | .stE => ("st e", [])
  | .ldE => ("ld e", [])
  | .stF => ("st f", [])
  | .ldF => ("ld f", [])
  | .stG => ("st g", [])
  | .ldG => ("ld g", [])
  | .stH => ("st h", [])
  | .ldH => ("ld h", [])
  | .escExit => (".eb", [0x00])
  | .escZero => (".eb", [0xFF])
  | .escLit b => (".eb", [b])
  | .invalid b => ("", [b])

/-- `lit "s"` of R103: push the string `s` (which may not hold 0xFF) through Escape mode, first byte on top. -/
def asmLit (s : List Byte) : List Byte :=
  0x00 :: s.reverse.map (fun b => if b = 0x00 then 0xFF else b) ++ [0x00]

/-- `lits0 "s"` of R103: as `lit`, with a 0x00 terminator beneath the string. -/
def asmLits0 (s : List Byte) : List Byte :=
  asmLit (s ++ [0x00])

/-- `pushv v` of R103 at Width `w`: 0x01 and the `W` bytes of `v`, most significant first. -/
def asmPushv (w : Width) (v : Nat) : List Byte :=
  0x01 :: ((List.range w.bytes).map fun k => BitVec.ofNat 8 (v / 2 ^ (8 * k))).reverse

/-- `jmpto t` of R103, at Width 1. -/
def asmJmpto (t : Byte) : List Byte :=
  [0x01, t, 0x0C]

end Sys2Proof
end

