-- ==== Sys2Proof/Machine/Fetch.lean ====
section
/-! DEFINITION. Fetching and decoding the next instruction, the end-of-run test and the instruction counter
(spec 40_decode_loop.md R110 to R113). -/

namespace Sys2Proof.Machine

/-- What a step finds before any instruction is performed. -/
inductive Turn where
  /-- The run is over: no step happens (R31, R110). -/
  | over
  /-- The program has ended: the step leaves this state and performs no instruction (R111). -/
  | ends (t : State)
  /-- The step performs `i` from this state (R113). -/
  | runs (i : Instr) (t : State)
  deriving DecidableEq, Repr

/-- One turn of the loop up to the dispatch: only in Running; the end of the program gives Halted and counts
nothing; otherwise the byte at `pc` is counted and decoded in the mode and Width of the state (R110 to R113,
R126). -/
def fetchTurn (s : State) : Turn :=
  match s.status with
  | .halted => .over
  | .faulted => .over
  | .running =>
    match decode s.mode s.width (progFrom s s.pc) with
    | .rejected .noByte => .ends { s with status := .halted }
    | .ok i _ => .runs i { s with icount := s.icount + 1 }

/-- Store `bytes` in the program from offset `a` on, with 0x00 between the end and `a` if there is a gap. -/
def storeAt (prog : List Byte) (a : Nat) (bytes : List Byte) : List Byte :=
  prog.take a ++ List.replicate (a - prog.length) 0x00 ++ bytes ++ prog.drop (a + bytes.length)

/-- `s` with the instruction of a table word stored at `pc` and a run that is on, so that the next step
fetches that instruction. This stands for the host's loading of a program (R246; log 1). -/
def loadWord (s : State) (nbits w : Nat) : State :=
  { s with prog := storeAt s.prog s.pc (tableBytes nbits w), status := .running }

end Sys2Proof.Machine
end

