-- ==== Sys2Proof/Machine/Step.lean ====
section
/-! DEFINITION. One step of the machine (spec 40_decode_loop.md R110). -/

namespace Sys2Proof.Machine

/-- One turn of the fetch-decode-execute loop. -/
def step (s : State) : Host.Outcome State Fault Refusal :=
  match fetchTurn s with
  | .over => .fault .runEnded
  | .ends t => .next t
  | .runs i t => exec i t

/-- `s` with a table word's instruction placed where the next step fetches it. -/
def State.withFetchWord (s : State) (nbits w : Nat) : State :=
  loadWord s nbits w

end Sys2Proof.Machine
end

