-- ==== Sys2Proof/Machine/HostInterface.lean ====
section
/-! DEFINITION. The host's side of a run, as far as the spec gives it (spec 70_reset_and_hazards.md R243 to R246;
60_exceptions.md R225), and the ports of 10_state.md R40 that are not fields of the state. It is outside the core
(00_scope.md R6): `step` uses none of it. -/

namespace Sys2Proof.Machine

/-- The magic header of a program file: 0x0A, 'M', 'V', 'M' (R243). -/
def magicHeader : List Byte :=
  [0x0A, 0x4D, 0x56, 0x4D]

/-- The body of a program file, or none where the core never starts: a wrong header, or a file too short to
hold one (R243, R244). -/
def loadFile (file : List Byte) : Option (List Byte) :=
  if file.take 4 = magicHeader then some (file.drop 4) else none

/-- The state in which the host starts the core on a file (R242, R246). -/
def startFile (cfg : Params) (file : List Byte) : Option State :=
  (loadFile file).map (State.start cfg)

/-- The port `prog_len` of R40: `len`. -/
def progLen (s : State) : Nat :=
  s.prog.length

/-- The port `prog_byte(a)` of R40, which answers for `0 ≤ a < len` (R51). -/
def progByte (s : State) (a : Nat) : Option Byte :=
  s.prog[a]?

/-- The exit status of the host once the run is over: 0 for Halted, 1 for a fault of any kind (R225). -/
def exitStatus : RunState → Option Nat
  | .running => none
  | .halted => some 0
  | .faulted => some 1

end Sys2Proof.Machine
end

