-- ==== Sys2Proof/Safety.lean ====
section
/-! DEFINITION. The terms in which claims speak of the machine: the value of stack bytes, an instruction that
ends the run with a fault, what of a state a claim may read after a fault, and the invariants of a run. -/

namespace Sys2Proof.Machine

/-! ## Values and stack bytes -/

/-- The unsigned value of bytes listed from the least significant one: `Σ b_i · 2^(8i)` (R65). -/
def littleEndian : List Byte → Nat
  | [] => 0
  | b :: rest => b.toNat + 256 * littleEndian rest

/-- The low `n` bytes of a value as they lie on a stack, top first: byte `i` from the top holds bits `8i` to
`8i + 7` (R64). -/
def stackBytes (n v : Nat) : List Byte :=
  (List.range n).map fun i => BitVec.ofNat 8 (v / 2 ^ (8 * i))

/-- The bytes of memory from address `a`, `n` of them, rising. -/
def memBytes (m : Memory) (a n : Nat) : List Byte :=
  (List.range n).map fun i => m.read (a + i)

/-- The store-register instruction of a register (R94). -/
def storeInstr : Reg → Instr
  | .a => .stA
  | .b => .stB
  | .c => .stC
  | .d => .stD
  | .e => .stE
  | .f => .stF
  | .g => .stG
  | .h => .stH

/-- The load-register instruction of a register (R94). -/
def loadInstr : Reg → Instr
  | .a => .ldA
  | .b => .ldB
  | .c => .ldC
  | .d => .ldD
  | .e => .ldE
  | .f => .ldF
  | .g => .ldG
  | .h => .ldH

/-- The index of a register, 0 to 7 (R21). -/
def regIndex : Reg → Nat
  | .a => 0
  | .b => 1
  | .c => 2
  | .d => 3
  | .e => 4
  | .f => 5
  | .g => 6
  | .h => 7

/-- Every byte of `text` is a decimal digit character (R202). -/
def allDigits (text : List Byte) : Prop :=
  ∀ b ∈ text, 0x30 ≤ b.toNat ∧ b.toNat ≤ 0x39

/-- The number a string of decimal digit characters stands for, the first digit the most significant. -/
def decimalValue (text : List Byte) : Nat :=
  text.foldl (fun v b => 10 * v + (b.toNat - 0x30)) 0

/-- `text` is the decimal rendering of `v` that R202 asks for: digits only, at least one, of value `v`, and
with no leading zero, but that zero itself is "0". -/
def IsDecimal (text : List Byte) (v : Nat) : Prop :=
  text ≠ [] ∧ allDigits text ∧ decimalValue text = v ∧ (text.head? = some 0x30 → text = [0x30])

/-- The byte `b` in mode `m` is the whole of instruction `i`, at every Width and whatever follows (R91,
R93). -/
def DecodesTo (m : Mode) (b : Byte) (i : Instr) : Prop :=
  ∀ w rest, decode m w (b :: rest) = .ok i rest

/-! ## Faults -/

/-- The instruction ends the run with the fault `c`: the state after it is Faulted, with the cause and the
position of this step in the record and `out` as the output so far. Nothing else of that state is observable,
so a claim about a fault says no more than this (R210, R218). -/
def FaultsWith (i : Instr) (s : State) (c : Cause) (out : List Byte) : Prop :=
  ∃ t, exec i s = .next t ∧ t.status = .faulted ∧
    t.fault = some { cause := c, position := s.icount } ∧ t.out = out

/-- The instruction ends the run with the fault `c` and has emitted nothing. -/
def Faults (i : Instr) (s : State) (c : Cause) : Prop :=
  FaultsWith i s c s.out

/-- The instruction does the same in `s` as in the changed state `f s`, where `g` is what is left of the change
afterwards: both answer a next state, with the same observations, and, unless it faults, `g` takes the one next
state to the other. -/
def Agrees (f g : State → State) (i : Instr) (s : State) : Prop :=
  ∃ t u, exec i s = .next t ∧ exec i (f s) = .next u ∧ u.status = t.status ∧ u.fault = t.fault ∧
    u.out = t.out ∧ (t.status ≠ .faulted → u = g t)

/-- The instruction does the same in `s` as in the changed state `f s`, and leaves the change as it was. -/
abbrev AgreesUpTo (f : State → State) (i : Instr) (s : State) : Prop :=
  Agrees f f i s

/-- The instruction raises, from some running state, a fault whose cause meets `p`. -/
def CanRaise (i : Instr) (p : Cause → Prop) : Prop :=
  ∃ s t r, s.status = .running ∧ s.fault = none ∧ exec i s = .next t ∧ t.fault = some r ∧ p r.cause

/-! ## Safe runs -/

/-- The bounds that R43 gives a run that has not faulted: the stacks within their capacities, MemoryPointer
inside memory or still at its reset value, and no memory byte outside the address space (R37). -/
def State.bounded (s : State) : Prop :=
  s.ds.length ≤ s.cfg.dstackCap ∧ s.cs.length ≤ s.cfg.cstackCap ∧
    (s.mp.toNat < s.cfg.memSize ∨ s.mp = s.cfg.mpReset) ∧ ∀ c ∈ s.mem, c.1 < s.cfg.memSize

/-- The fault record goes with the run state: there is one exactly in Faulted, and its position is the step
count, which is 1 or more (R34, R210). -/
def State.recordFits (s : State) : Prop :=
  match s.fault with
  | none => s.status ≠ .faulted
  | some r => s.status = .faulted ∧ r.position = s.icount ∧ 1 ≤ r.position

/-- What holds of every state of a run: memory in canonical form, the fault record in step with the run
state, and, unless the run has faulted, the bounds of R43. Its clause `pc < len` holds at a fetch only, not
between steps (90_conflicts.md C5; log 7). -/
structure State.Inv (s : State) : Prop where
  mem_wf : s.mem.wf = true
  record : s.recordFits
  bounds : s.status ≠ .faulted → s.bounded

end Sys2Proof.Machine
end

