-- ==== Sys2Proof/Certificates/Slice0/Obligations.lean ====
section
/-! DEFINITION. The statements for the provers, in the order of the spec's files. In each, `W` is
`s.width.bytes`. A clause about a fault reads only what R218 makes observable. -/

open Sys2Proof Sys2Proof.Machine

/-! ## Reset and the state -/

/-- R240: what reset leaves, for every parameter value and every program; `M` reads 0x00 everywhere. The reference
gives REG_RESET and MP_RESET the value 1. -/
def Obligations.StartStateIsAsTabulated : Prop :=
  (∀ (cfg : Params) (prog : List Byte), ∃ s, s = State.start cfg prog ∧ s.pc = 0 ∧
    (∀ r, s.regs.get r = cfg.regReset) ∧ s.width.bytes = 1 ∧ s.mode = .normal ∧ s.status = .running ∧
    s.mp = cfg.mpReset ∧ s.icount = 0 ∧ s.fault = none ∧ s.ds = [] ∧ s.cs = [] ∧
    (∀ a, s.mem.read a = 0x00) ∧ s.out = []) ∧
  Params.reference.regReset = 1 ∧ Params.reference.mpReset = 1

/-- R9 for the values of the parameters; that `State.reset` takes them, and an empty program until the host
hands one over, is the model's own choice (logs 1 and 2). -/
def Obligations.ResetIsTheReferenceStart : Prop :=
  State.reset = State.start Params.reference [] ∧
  Params.reference.memSize = 256 ∧ Params.reference.dstackCap = 65536 ∧
  Params.reference.cstackCap = 65536 ∧ Params.reference.regReset = 1 ∧ Params.reference.mpReset = 1 ∧
  ∀ (cfg : Params) (prog : List Byte), (State.start cfg prog).prog = prog ∧ (State.start cfg prog).cfg = cfg

/-- R43 with log 7: every start state, reset among them, meets the invariant of runs. -/
def Obligations.StartStatesMeetRunBounds : Prop :=
  (∀ (cfg : Params) (prog : List Byte), (State.start cfg prog).Inv) ∧ State.reset.Inv

/-- R43 with log 7: from every state that meets the invariant of runs, reachable or not, every step that
answers a next state answers one that meets it. -/
def Obligations.EveryStepKeepsRunBounds : Prop :=
  ∀ s t : State, s.Inv → step s = .next t → t.Inv

/-- R24, R28, R32, R36, R54, R146: what an instruction leaves as it was unless it is one of those that the
spec lets write the element: each register, Width, mode, MemoryPointer, the call stack, every byte of memory.
The run state leaves Running only by HALT or a fault. -/
def Obligations.ElementsChangeOnlyByTheirWriters : Prop :=
  ∀ (i : Instr) (s t : State), exec i s = .next t → t.status ≠ .faulted →
    (∀ r, i ≠ storeInstr r → t.regs.get r = s.regs.get r) ∧
    (i ≠ .w1 → i ≠ .w2 → i ≠ .w4 → i ≠ .w8 → t.width = s.width) ∧
    (i ≠ .esc → i ≠ .escExit → t.mode = s.mode) ∧
    (i ≠ .setp → t.mp = s.mp) ∧
    (i ≠ .call → i ≠ .ret → t.cs = s.cs) ∧
    (i ≠ .mwb → ∀ a, t.mem.read a = s.mem.read a) ∧
    (i ≠ .halt → t.status = s.status) ∧
    t.fault = s.fault ∧ t.icount = s.icount

/-- R24, R26, R28, R32, R33, R36, R54: an instruction outside the readers and the writers of an element does the
same whatever the element holds: the registers, Width, memory, the call stack, MemoryPointer, mode. No
instruction at all reads icount: with another count a fault has the same cause, and only its position may differ.
After a halt the states compared include the PC, whose value there is the model's own choice (log 9). -/
def Obligations.ElementsMatterOnlyToTheirReaders : Prop :=
  (∀ (i : Instr) (x : RegFile) (s : State), (∀ r, i ≠ storeInstr r ∧ i ≠ loadInstr r) →
    i ∉ [Instr.add, .sub, .jng, .jne] → AgreesUpTo (fun s => { s with regs := x }) i s) ∧
  (∀ (i : Instr) (w : Width) (s : State),
    (i ∈ [Instr.esc, .pop, .nop05, .nop0A, .nop0B, .nop11, .nop13, .nop1F, .halt, .mrs, .log, .escExit, .escZero] ∨
      (∃ b, i = .escLit b) ∨ ∃ b, i = .invalid b) →
    AgreesUpTo (fun s => { s with width := w }) i s) ∧
  (∀ (i : Instr) (m : Memory) (s : State), i ∉ [Instr.mrb, .mrs, .mwb] →
    AgreesUpTo (fun s => { s with mem := m }) i s) ∧
  (∀ (i : Instr) (bs : List Byte) (s : State), i ∉ [Instr.call, .ret] →
    AgreesUpTo (fun s => { s with cs := bs }) i s) ∧
  (∀ (i : Instr) (a : Word) (s : State), i ∉ [Instr.setp, .pushp, .mrb, .mrs, .mwb] →
    AgreesUpTo (fun s => { s with mp := a }) i s) ∧
  (∀ (i : Instr) (m : Mode) (s : State), i ∉ [Instr.esc, .escExit] →
    AgreesUpTo (fun s => { s with mode := m }) i s) ∧
  ∀ (i : Instr) (n : Nat) (s : State), ∃ t u, exec i s = .next t ∧
    exec i { s with icount := n } = .next u ∧ u.status = t.status ∧ u.out = t.out ∧
    u.fault.map FaultRecord.cause = t.fault.map FaultRecord.cause ∧
    (t.status = .faulted ∨ u = { t with icount := n })

/-- R24, R26, R28, R32, R54: store-register, set-width, the two 0x00 actions, set-pointer and memory-write-block do
not read the element they write, and load-register, add, subtract and the conditional jumps read no register but
their own. Memory-write-block stores the same bytes at the same `W` addresses from MemoryPointer on, whatever
memory held, and leaves every other address. (Return, which pops what it changes, is not among them.) -/
def Obligations.WritersIgnoreTheOldValueAndReadersTheOtherRegisters : Prop :=
  (∀ (r : Reg) (x : RegFile) (s : State),
    Agrees (fun s => { s with regs := x }) (fun t => { t with regs := x.set r (t.regs.get r) })
      (storeInstr r) s ∧
    (x.get r = s.regs.get r → AgreesUpTo (fun s => { s with regs := x }) (loadInstr r) s)) ∧
  (∀ i ∈ [Instr.add, .sub, .jng, .jne], ∀ (x : RegFile) (s : State), x.a = s.regs.a → x.b = s.regs.b →
    AgreesUpTo (fun s => { s with regs := x }) i s) ∧
  (∀ i ∈ [Instr.w1, .w2, .w4, .w8], ∀ (w : Width) (s : State), Agrees (fun s => { s with width := w }) id i s) ∧
  (∀ i ∈ [Instr.esc, .escExit], ∀ (m : Mode) (s : State), Agrees (fun s => { s with mode := m }) id i s) ∧
  (∀ (a : Word) (s : State), Agrees (fun s => { s with mp := a }) id .setp s) ∧
  ∀ (m : Memory) (s : State), ∃ m' : Memory,
    Agrees (fun s => { s with mem := m }) (fun t => { t with mem := m' }) .mwb s ∧
    (s.mem.wf = true → m.wf = true → ∀ t, exec .mwb s = .next t → t.status ≠ .faulted → m'.wf = true ∧
      ∀ a, m'.read a =
        if s.mp.toNat ≤ a ∧ a < s.mp.toNat + s.width.bytes then t.mem.read a else m.read a)

/-- R38: the output is empty at reset; every instruction leaves what was emitted in place and in order, and
only debug-log appends to it, a faulting one among them. -/
def Obligations.OutputOnlyGrowsAndOnlyByLog : Prop :=
  State.reset.out = [] ∧ ∀ (i : Instr) (s t : State), exec i s = .next t →
    ∃ bs, t.out = s.out ++ bs ∧ (i ≠ .log → bs = [])

/-- R52: no instruction and no step changes the program, nor the parameters of the run (R9). -/
def Obligations.ProgramIsNeverWritten : Prop :=
  (∀ (i : Instr) (s t : State), exec i s = .next t → t.prog = s.prog ∧ t.cfg = s.cfg) ∧
  ∀ s t : State, step s = .next t → t.prog = s.prog ∧ t.cfg = s.cfg

/-! ## Width-wide values on the data stack -/

/-- R66: a value pushed at a Width and popped at once at that Width comes back, and the state with it. -/
def Obligations.PopWidthReturnsWhatPushWidthPushed : Prop :=
  ∀ (s : State) (v : Word), v.toNat < 2 ^ (8 * s.width.bytes) →
    s.ds.length + s.width.bytes ≤ s.cfg.dstackCap →
    ∃ t, pushW v s = .ok () t ∧ popW .data t = .ok v s

/-- R68: a value pushed at one Width and popped at another. Narrower, the low bytes come back and the high
ones stay; wider, the bytes beneath become the high ones, or the pop underflows. -/
def Obligations.PopAtAnotherWidthSplitsOrJoinsBytes : Prop :=
  ∀ (s : State) (v : Word) (w' : Width), s.ds.length + s.width.bytes ≤ s.cfg.dstackCap →
    ∃ t, pushW v s = .ok () t ∧
      (w'.bytes < s.width.bytes → ∃ x u, popW .data { t with width := w' } = .ok x u ∧
        x.toNat = v.toNat % 2 ^ (8 * w'.bytes) ∧
        u.ds = stackBytes (s.width.bytes - w'.bytes) (v.toNat / 2 ^ (8 * w'.bytes)) ++ s.ds) ∧
      (s.width.bytes < w'.bytes → w'.bytes ≤ s.width.bytes + s.ds.length →
        ∃ x u, popW .data { t with width := w' } = .ok x u ∧
          x.toNat = v.toNat % 2 ^ (8 * s.width.bytes) +
            2 ^ (8 * s.width.bytes) * littleEndian (s.ds.take (w'.bytes - s.width.bytes)) ∧
          u.ds = s.ds.drop (w'.bytes - s.width.bytes)) ∧
      (s.width.bytes + s.ds.length < w'.bytes →
        ∃ u, popW .data { t with width := w' } = .raised (.stackUnderflow .data) u)

/-! ## Encoding -/

/-- R90 to R101: every instruction the encoding has in a mode at a Width is read back from its bytes, with
every operand at every value, and what follows it is left. -/
def Obligations.DecodeReadsBackEveryEncoding : Prop :=
  ∀ (m : Mode) (w : Width) (i : Instr) (rest : List Byte), i.wfIn m w = true →
    decode m w (encode i ++ rest) = .ok i rest

/-- R104: every byte in every mode starts exactly one instruction of that mode and Width, whose bytes are the
ones read. The second case is the model's own choice (log 12): R140 gives a 0x01 with too few bytes after it a
fault and no literal, and the model's decoder reads it as a push-literal of the bytes that are left, which faults
when it is performed. -/
def Obligations.EveryByteStartsOneInstruction : Prop :=
  ∀ (m : Mode) (w : Width) (b : Byte) (bs : List Byte), ∃ i rest, decode m w (b :: bs) = .ok i rest ∧
    ((i.wfIn m w = true ∧ b :: bs = encode i ++ rest) ∨
      (m = .normal ∧ b = 0x01 ∧ bs.length < w.bytes ∧ i = .pushl bs ∧ rest = []))

/-- R97, R100, R94: words of every family, written out from the opcode maps, decode to their instructions. -/
def Obligations.WordsOfTheOpcodeMapDecode : Prop :=
  decode .normal .w1 [0x00] = .ok .esc [] ∧
  decode .normal .w2 [0x01, 0x12, 0x34, 0x05] = .ok (.pushl [0x12, 0x34]) [0x05] ∧
  decode .normal .w4 [0x0D] = .ok .call [] ∧
  decode .normal .w1 [0x16] = .ok .mwb [] ∧
  decode .normal .w8 [0x1D] = .ok .w8 [] ∧
  decode .normal .w1 [0x2E] = .ok .stH [] ∧
  decode .normal .w1 [0x07] = .ok .sub [] ∧
  decode .normal .w1 [0x1E] = .ok .log [] ∧
  decode .normal .w1 [0x19] = .ok (.invalid 0x19) [] ∧
  decode .escape .w1 [0x0E] = .ok (.escLit 0x0E) [] ∧
  decode .escape .w1 [0xFF] = .ok .escZero [] ∧
  decode .escape .w1 [0x00] = .ok .escExit []

/-! ## The loop -/

/-- R110, R112, R113: in Running, when the bytes at `pc` decode in the mode and Width of the state to an
instruction, a step counts the byte and is that instruction. -/
def Obligations.StepRunsTheDecodedInstruction : Prop :=
  ∀ (s : State) (i : Instr) (rest : List Byte), s.status = .running →
    decode s.mode s.width (s.prog.drop s.pc) = .ok i rest →
    step s = exec i { s with icount := s.icount + 1 }

/-- R111, R126 (decisions D5 and D15 for a `pc` past the end and for Escape mode): in Running with `pc` at or past
the end, in either mode, a step ends the run with success, counts nothing and changes nothing else; the PC after
the end of a run is not read here (decision D14, log 9). -/
def Obligations.StepHaltsAtProgramEnd : Prop :=
  ∀ s : State, s.status = .running → s.prog.length ≤ s.pc →
    ∃ p, step s = .next { s with status := .halted, pc := p }

/-- R31, R110, R219: no step happens in Halted or Faulted. That the model answers a stop there is its own
choice (log 3). -/
def Obligations.NoStepAfterTheRunEnds : Prop :=
  ∀ s : State, s.status = .halted ∨ s.status = .faulted → step s = .fault .runEnded

/-- 93_implementation_defined.md, "Every step either advances, halts or faults": a step in Running always
answers a next state, and exactly a step that fetches a byte is counted (R33, R112). -/
def Obligations.EveryRunningStepAdvancesHaltsOrFaults : Prop :=
  ∀ s : State, s.status = .running → ∃ t, step s = .next t ∧
    t.icount = (if s.pc < s.prog.length then s.icount + 1 else s.icount)

/-- R210 (decision D12 for the count): a step that faults leaves the run Faulted with a record whose position is
that step's count, and there is no step after it; that the model answers a stop there is its own choice
(log 3). -/
def Obligations.FaultRecordsItsStepAndEndsTheRun : Prop :=
  ∀ s t : State, step s = .next t → t.status = .faulted →
    (∃ c, t.fault = some { cause := c, position := s.icount + 1 }) ∧ step t = .fault .runEnded

/-- R114, R115: 0x00 enters Escape mode and, in Escape mode, leaves it; nothing is pushed. -/
def Obligations.EscapeByteTogglesMode : Prop :=
  DecodesTo .normal 0x00 .esc ∧ DecodesTo .escape 0x00 .escExit ∧
  ∀ s : State, exec .esc s = .next { s with mode := .escape, pc := s.pc + 1 } ∧
    exec .escExit s = .next { s with mode := .normal, pc := s.pc + 1 }

/-- R116, R117: the two payload actions push one byte at every Width, or overflow. -/
def Obligations.EscapePayloadPushesOneByte : Prop :=
  DecodesTo .escape 0xFF .escZero ∧
  (∀ b : Byte, b ≠ 0x00 → b ≠ 0xFF → DecodesTo .escape b (.escLit b)) ∧
  ∀ s : State,
    (s.ds.length < s.cfg.dstackCap →
      exec .escZero s = .next { s with ds := 0x00 :: s.ds, pc := s.pc + 1 } ∧
      ∀ b, exec (.escLit b) s = .next { s with ds := b :: s.ds, pc := s.pc + 1 }) ∧
    (s.cfg.dstackCap ≤ s.ds.length →
      Faults .escZero s (.stackOverflow .data) ∧ ∀ b, Faults (.escLit b) s (.stackOverflow .data))

/-- R100: in Escape mode no byte is an opcode. A step on 0x00 leaves the mode, one on 0xFF pushes 0x00, and one
on any other byte pushes that byte. The step's count is stated in EveryRunningStepAdvancesHaltsOrFaults. -/
def Obligations.EscapeModeStepNeverRunsAnOpcode : Prop :=
  ∀ (s : State) (b : Byte), s.status = .running → s.mode = .escape → s.prog[s.pc]? = some b →
    ∃ n,
      (b = 0x00 → step s = .next { s with mode := .normal, pc := s.pc + 1, icount := n }) ∧
      (b ≠ 0x00 → s.ds.length < s.cfg.dstackCap →
        step s = .next { s with
          ds := (if b = 0xFF then 0x00 else b) :: s.ds, pc := s.pc + 1, icount := n })

/-- R118 to R123: the six no-operations change nothing but the PC. -/
def Obligations.NoOperationsOnlyAdvance : Prop :=
  (DecodesTo .normal 0x05 .nop05 ∧ DecodesTo .normal 0x0A .nop0A ∧ DecodesTo .normal 0x0B .nop0B ∧
    DecodesTo .normal 0x11 .nop11 ∧ DecodesTo .normal 0x13 .nop13 ∧ DecodesTo .normal 0x1F .nop1F) ∧
  ∀ i ∈ [Instr.nop05, .nop0A, .nop0B, .nop11, .nop13, .nop1F], ∀ s : State,
    exec i s = .next { s with pc := s.pc + 1 }

/-- R98, R124, R212 (decision D12 for the position): the invalid opcodes are exactly these 212 bytes, and a
Normal-mode fetch of one ends the run with InvalidOpcode, the byte, and the position of the step. The clause on
`exec` says that nothing else changes, in R124's words; R218 calls the elements it reads so not observable after
a fault, and that the model keeps them there is its own choice (log 5). -/
def Obligations.InvalidOpcodesFault : Prop :=
  ∀ b : Byte,
    ((∃ c, DecodesTo .normal b (.invalid c)) ↔
      b.toNat = 0x04 ∨ b.toNat = 0x17 ∨ b.toNat = 0x18 ∨ b.toNat = 0x19 ∨ 0x30 ≤ b.toNat) ∧
    (∀ s : State, exec (.invalid b) s = .next { s with
      status := .faulted, fault := some { cause := .invalidOpcode b, position := s.icount } }) ∧
    ∀ s : State, s.status = .running → s.mode = .normal → s.prog[s.pc]? = some b →
      (b.toNat = 0x04 ∨ b.toNat = 0x17 ∨ b.toNat = 0x18 ∨ b.toNat = 0x19 ∨ 0x30 ≤ b.toNat) →
      ∃ t, step s = .next t ∧ t.status = .faulted ∧ t.out = s.out ∧
        t.fault = some { cause := .invalidOpcode b, position := s.icount + 1 }

/-! ## Stack literal, discard and width -/

/-- R140, R216 (decision D6 for the truncated case, D12 for its position): push-literal pushes its `W` bytes in
stream order, the first deepest, and goes on after them, or overflows. With fewer than `W` bytes left in the
program it faults with TruncatedLiteral, whatever bytes it was handed, and so does the step on such a 0x01. -/
def Obligations.PushLiteralPushesItsBytes : Prop :=
  (∀ (lit : List Byte) (s : State),
    (lit.length = s.width.bytes → s.pc + s.width.bytes < s.prog.length →
      s.ds.length + s.width.bytes ≤ s.cfg.dstackCap →
      exec (.pushl lit) s =
        .next { s with ds := lit.reverse ++ s.ds, pc := s.pc + 1 + s.width.bytes }) ∧
    (lit.length = s.width.bytes → s.pc + s.width.bytes < s.prog.length →
      s.cfg.dstackCap < s.ds.length + s.width.bytes → Faults (.pushl lit) s (.stackOverflow .data)) ∧
    (s.prog.length ≤ s.pc + s.width.bytes → Faults (.pushl lit) s (.truncatedLiteral s.pc))) ∧
  ∀ s : State, s.status = .running → s.mode = .normal → s.prog[s.pc]? = some 0x01 →
    s.prog.length ≤ s.pc + s.width.bytes →
    ∃ t, step s = .next t ∧ t.status = .faulted ∧ t.out = s.out ∧
      t.fault = some { cause := .truncatedLiteral s.pc, position := s.icount + 1 }

/-- R92: the literal of a push-literal step is the `W` program bytes after the 0x01, `lit[1]` deepest. The step's
count is stated in EveryRunningStepAdvancesHaltsOrFaults. -/
def Obligations.PushLiteralReadsTheStream : Prop :=
  ∀ (s : State) (before lit after : List Byte), s.status = .running → s.mode = .normal →
    s.prog = before ++ 0x01 :: (lit ++ after) → before.length = s.pc → lit.length = s.width.bytes →
    s.ds.length + s.width.bytes ≤ s.cfg.dstackCap →
    ∃ n, step s = .next { s with
      ds := lit.reverse ++ s.ds, pc := s.pc + 1 + s.width.bytes, icount := n }

/-- R95, R254: a literal popped at the Width it was pushed at reads as a big-endian number. -/
def Obligations.LiteralReadsBackBigEndian : Prop :=
  ∀ (lit : List Byte) (s t : State), lit.length = s.width.bytes → exec (.pushl lit) s = .next t →
    t.status ≠ .faulted →
    ∃ v u, popW .data t = .ok v u ∧ v.toNat = lit.foldl (fun n b => 256 * n + b.toNat) 0 ∧ u.ds = s.ds

/-- R141: pop-discard removes one byte at every Width, or underflows. -/
def Obligations.PopDiscardsOneByte : Prop :=
  DecodesTo .normal 0x02 .pop ∧
  ∀ s : State,
    (∀ b rest, s.ds = b :: rest → exec .pop s = .next { s with ds := rest, pc := s.pc + 1 }) ∧
    (s.ds = [] → Faults .pop s (.stackUnderflow .data))

/-- R142 to R145: the set-width opcodes set Width and convert nothing. -/
def Obligations.SetWidthChangesOnlyWidth : Prop :=
  (DecodesTo .normal 0x1A .w1 ∧ DecodesTo .normal 0x1B .w2 ∧ DecodesTo .normal 0x1C .w4 ∧
    DecodesTo .normal 0x1D .w8) ∧
  ∀ p ∈ [(Instr.w1, 1), (.w2, 2), (.w4, 4), (.w8, 8)], ∀ s : State, ∃ w : Width, w.bytes = p.2 ∧
    exec p.1 s = .next { s with width := w, pc := s.pc + 1 }

/-! ## Register transfer -/

/-- R150 and its family (decision D7: the bits above 8W become 0): store-register pops a Width-wide value,
zero-extended, into its whole register, or underflows. -/
def Obligations.StoreRegisterPopsAWideValue : Prop :=
  ∀ r : Reg, DecodesTo .normal (BitVec.ofNat 8 (0x20 + 2 * regIndex r)) (storeInstr r) ∧
  ∀ s : State,
    (s.width.bytes ≤ s.ds.length → exec (storeInstr r) s = .next { s with
      regs := s.regs.set r (BitVec.ofNat 64 (littleEndian (s.ds.take s.width.bytes))),
      ds := s.ds.drop s.width.bytes, pc := s.pc + 1 }) ∧
    (s.ds.length < s.width.bytes → Faults (storeInstr r) s (.stackUnderflow .data))

/-- R151 and its family: load-register pushes the low `W` bytes of its register, least significant on top, or
overflows. -/
def Obligations.LoadRegisterPushesLowBytes : Prop :=
  ∀ r : Reg, DecodesTo .normal (BitVec.ofNat 8 (0x21 + 2 * regIndex r)) (loadInstr r) ∧
  ∀ s : State,
    (s.ds.length + s.width.bytes ≤ s.cfg.dstackCap → exec (loadInstr r) s = .next { s with
      ds := stackBytes s.width.bytes (s.regs.get r).toNat ++ s.ds, pc := s.pc + 1 }) ∧
    (s.cfg.dstackCap < s.ds.length + s.width.bytes → Faults (loadInstr r) s (.stackOverflow .data))

/-! ## Memory Unit -/

/-- R170 (decision D9 for the range): set-pointer pops a Width-wide address into MemoryPointer, or faults. -/
def Obligations.SetPointerChecksItsAddress : Prop :=
  DecodesTo .normal 0x10 .setp ∧
  ∀ s : State,
    (s.width.bytes ≤ s.ds.length → littleEndian (s.ds.take s.width.bytes) < s.cfg.memSize →
      exec .setp s = .next { s with
        mp := BitVec.ofNat 64 (littleEndian (s.ds.take s.width.bytes)),
        ds := s.ds.drop s.width.bytes, pc := s.pc + 1 }) ∧
    (s.width.bytes ≤ s.ds.length → s.cfg.memSize ≤ littleEndian (s.ds.take s.width.bytes) →
      Faults .setp s (.memoryFault (littleEndian (s.ds.take s.width.bytes)))) ∧
    (s.ds.length < s.width.bytes → Faults .setp s (.stackUnderflow .data))

/-- R171: push-pointer pushes the low `W` bytes of MemoryPointer, or overflows. -/
def Obligations.PushPointerPushesLowBytes : Prop :=
  DecodesTo .normal 0x12 .pushp ∧
  ∀ s : State,
    (s.ds.length + s.width.bytes ≤ s.cfg.dstackCap →
      exec .pushp s = .next { s with
        ds := stackBytes s.width.bytes s.mp.toNat ++ s.ds, pc := s.pc + 1 }) ∧
    (s.cfg.dstackCap < s.ds.length + s.width.bytes → Faults .pushp s (.stackOverflow .data))

/-- R172 (decisions D9, D17 for the range check and its place): memory-read-block pushes `M[MP .. MP+W−1]` with
`M[MP]` on top and changes no memory, or faults. -/
def Obligations.ReadBlockPushesLowestAddressOnTop : Prop :=
  DecodesTo .normal 0x14 .mrb ∧
  ∀ s : State,
    (s.mp.toNat + s.width.bytes ≤ s.cfg.memSize → s.ds.length + s.width.bytes ≤ s.cfg.dstackCap →
      exec .mrb s = .next { s with
        ds := memBytes s.mem s.mp.toNat s.width.bytes ++ s.ds, pc := s.pc + 1 }) ∧
    (s.cfg.memSize < s.mp.toNat + s.width.bytes →
      Faults .mrb s (.memoryFault (max s.mp.toNat s.cfg.memSize))) ∧
    (s.mp.toNat + s.width.bytes ≤ s.cfg.memSize → s.cfg.dstackCap < s.ds.length + s.width.bytes →
      Faults .mrb s (.stackOverflow .data))

/-- R173 (decision D9 for the fault): memory-read-string pushes the bytes before the first 0x00 at or after
MemoryPointer, the first of them on top, or faults. -/
def Obligations.ReadStringPushesUpToTerminator : Prop :=
  DecodesTo .normal 0x15 .mrs ∧
  ∀ s : State,
    (∀ n, s.mp.toNat + n < s.cfg.memSize → s.mem.read (s.mp.toNat + n) = 0x00 →
      (∀ i < n, s.mem.read (s.mp.toNat + i) ≠ 0x00) →
      (s.ds.length + n ≤ s.cfg.dstackCap →
        exec .mrs s = .next { s with ds := memBytes s.mem s.mp.toNat n ++ s.ds, pc := s.pc + 1 }) ∧
      (0 < n → s.cfg.dstackCap < s.ds.length + n → Faults .mrs s (.stackOverflow .data))) ∧
    ((∀ a, s.mp.toNat ≤ a → a < s.cfg.memSize → s.mem.read a ≠ 0x00) →
      Faults .mrs s (.memoryFault (max s.mp.toNat s.cfg.memSize)))

/-- R174 (decisions D9, D17; 90_conflicts.md C1 for the order): memory-write-block stores the first byte popped
at `MP + W − 1` and the last at `MP`; every other byte of memory reads as before. -/
def Obligations.WriteBlockStoresFirstPopHighest : Prop :=
  DecodesTo .normal 0x16 .mwb ∧
  ∀ s : State, s.mem.wf = true →
    (s.mp.toNat + s.width.bytes ≤ s.cfg.memSize → s.width.bytes ≤ s.ds.length →
      ∃ m : Memory,
        exec .mwb s = .next { s with mem := m, ds := s.ds.drop s.width.bytes, pc := s.pc + 1 } ∧
        m.wf = true ∧
        (∀ i < s.width.bytes, some (m.read (s.mp.toNat + (s.width.bytes - 1 - i))) = s.ds[i]?) ∧
        ∀ a, a < s.mp.toNat ∨ s.mp.toNat + s.width.bytes ≤ a → m.read a = s.mem.read a) ∧
    (s.cfg.memSize < s.mp.toNat + s.width.bytes →
      Faults .mwb s (.memoryFault (max s.mp.toNat s.cfg.memSize))) ∧
    (s.mp.toNat + s.width.bytes ≤ s.cfg.memSize → s.ds.length < s.width.bytes →
      Faults .mwb s (.stackUnderflow .data))

/-- R175, R251: a block write and then a block read at one MemoryPointer and Width give the bytes back in
reverse order. -/
def Obligations.WriteThenReadReversesBytes : Prop :=
  ∀ s : State, s.mem.wf = true → s.mp.toNat + s.width.bytes ≤ s.cfg.memSize →
    s.width.bytes ≤ s.ds.length → s.ds.length ≤ s.cfg.dstackCap →
    ∃ t u, exec .mwb s = .next t ∧ exec .mrb t = .next u ∧
      u.ds = (s.ds.take s.width.bytes).reverse ++ s.ds.drop s.width.bytes

/-! ## Arithmetic -/

/-- R180: add pushes the sum of registers A and B modulo 2^(8W), or overflows. -/
def Obligations.AddPushesTheSumModuloWidth : Prop :=
  DecodesTo .normal 0x06 .add ∧
  ∀ s : State,
    (s.ds.length + s.width.bytes ≤ s.cfg.dstackCap → exec .add s = .next { s with
      ds := stackBytes s.width.bytes ((s.regs.a.toNat + s.regs.b.toNat) % 2 ^ (8 * s.width.bytes)) ++ s.ds,
      pc := s.pc + 1 }) ∧
    (s.cfg.dstackCap < s.ds.length + s.width.bytes → Faults .add s (.stackOverflow .data))

/-- R181: subtract pushes the number in `[0, 2^(8W))` that differs from A − B by a multiple of 2^(8W), or
overflows. -/
def Obligations.SubPushesTheDifferenceModuloWidth : Prop :=
  DecodesTo .normal 0x07 .sub ∧
  ∀ s : State,
    (s.ds.length + s.width.bytes ≤ s.cfg.dstackCap → ∃ d : Nat, d < 2 ^ (8 * s.width.bytes) ∧
      (∃ k : Int, (s.regs.a.toNat : Int) - s.regs.b.toNat = d + k * 2 ^ (8 * s.width.bytes)) ∧
      exec .sub s = .next { s with ds := stackBytes s.width.bytes d ++ s.ds, pc := s.pc + 1 }) ∧
    (s.cfg.dstackCap < s.ds.length + s.width.bytes → Faults .sub s (.stackOverflow .data))

/-- R182: what add and subtract push depends only on the low `W` bytes of A and B. -/
def Obligations.ArithmeticIgnoresHighRegisterBytes : Prop :=
  ∀ i ∈ [Instr.add, .sub], ∀ (s t : State) (x : RegFile),
    x.a.toNat % 2 ^ (8 * s.width.bytes) = s.regs.a.toNat % 2 ^ (8 * s.width.bytes) →
    x.b.toNat % 2 ^ (8 * s.width.bytes) = s.regs.b.toNat % 2 ^ (8 * s.width.bytes) →
    exec i s = .next t → t.status ≠ .faulted →
    exec i { s with regs := x } = .next { t with regs := x }

/-! ## Control flow -/

/-- R187, R188, R193 (decisions D4, D8): the conditional jumps pop their target on both paths; JNG goes to it
unless A > B and JNE unless A = B, comparing the whole unsigned 64-bit registers; a taken target of 2^31 or more
faults. -/
def Obligations.ConditionalJumpsCompareWholeRegisters : Prop :=
  DecodesTo .normal 0x08 .jng ∧ DecodesTo .normal 0x09 .jne ∧
  ∀ (s : State) (i : Instr) (falls : Prop),
    (i = .jng ∧ (falls ↔ s.regs.b.toNat < s.regs.a.toNat)) ∨
      (i = .jne ∧ (falls ↔ s.regs.a.toNat = s.regs.b.toNat)) →
    (s.width.bytes ≤ s.ds.length → falls →
      exec i s = .next { s with ds := s.ds.drop s.width.bytes, pc := s.pc + 1 }) ∧
    (s.width.bytes ≤ s.ds.length → ¬ falls → littleEndian (s.ds.take s.width.bytes) < 2 ^ 31 →
      exec i s = .next { s with
        ds := s.ds.drop s.width.bytes, pc := littleEndian (s.ds.take s.width.bytes) }) ∧
    (s.width.bytes ≤ s.ds.length → ¬ falls → 2 ^ 31 ≤ littleEndian (s.ds.take s.width.bytes) →
      Faults i s (.targetOutOfRange (littleEndian (s.ds.take s.width.bytes)))) ∧
    (s.ds.length < s.width.bytes → Faults i s (.stackUnderflow .data))

/-- R189 (decision D4 for the bound): jump pops its target and goes to it, or faults. -/
def Obligations.JumpGoesToThePoppedTarget : Prop :=
  DecodesTo .normal 0x0C .jmp ∧
  ∀ s : State,
    (s.width.bytes ≤ s.ds.length → littleEndian (s.ds.take s.width.bytes) < 2 ^ 31 →
      exec .jmp s = .next { s with
        ds := s.ds.drop s.width.bytes, pc := littleEndian (s.ds.take s.width.bytes) }) ∧
    (s.width.bytes ≤ s.ds.length → 2 ^ 31 ≤ littleEndian (s.ds.take s.width.bytes) →
      Faults .jmp s (.targetOutOfRange (littleEndian (s.ds.take s.width.bytes)))) ∧
    (s.ds.length < s.width.bytes → Faults .jmp s (.stackUnderflow .data))

/-- R190 (decisions D4, D17, D25): call pushes the low 8 bits of its own `pc` on the call stack, one byte at
every Width, then pops its target and goes to it; a full call stack faults first. -/
def Obligations.CallPushesOneByteOfItsPc : Prop :=
  DecodesTo .normal 0x0D .call ∧
  ∀ s : State,
    (s.cfg.cstackCap ≤ s.cs.length → Faults .call s (.stackOverflow .call)) ∧
    (s.cs.length < s.cfg.cstackCap → s.ds.length < s.width.bytes →
      Faults .call s (.stackUnderflow .data)) ∧
    (s.cs.length < s.cfg.cstackCap → s.width.bytes ≤ s.ds.length →
      2 ^ 31 ≤ littleEndian (s.ds.take s.width.bytes) →
      Faults .call s (.targetOutOfRange (littleEndian (s.ds.take s.width.bytes)))) ∧
    (s.cs.length < s.cfg.cstackCap → s.width.bytes ≤ s.ds.length →
      littleEndian (s.ds.take s.width.bytes) < 2 ^ 31 →
      exec .call s = .next { s with
        cs := BitVec.ofNat 8 (s.pc % 256) :: s.cs, ds := s.ds.drop s.width.bytes,
        pc := littleEndian (s.ds.take s.width.bytes) })

/-- R191: halt ends the run with success and no step follows; stacks, registers and memory keep their values;
the PC after it is not read here. In Escape mode 0x0E is a payload byte. That the model answers a stop after it
is its own choice (log 3). -/
def Obligations.HaltEndsTheRun : Prop :=
  DecodesTo .normal 0x0E .halt ∧ DecodesTo .escape 0x0E (.escLit 0x0E) ∧
  ∀ s : State, ∃ p, exec .halt s = .next { s with status := .halted, pc := p } ∧
    step { s with status := .halted, pc := p } = .fault .runEnded

/-- R192 (decision D4 for the bound): return pops a Width-wide value from the call stack and goes to the byte
after it, or faults. -/
def Obligations.ReturnGoesPastThePoppedValue : Prop :=
  DecodesTo .normal 0x0F .ret ∧
  ∀ s : State,
    (s.width.bytes ≤ s.cs.length → littleEndian (s.cs.take s.width.bytes) + 1 < 2 ^ 31 →
      exec .ret s = .next { s with
        cs := s.cs.drop s.width.bytes, pc := littleEndian (s.cs.take s.width.bytes) + 1 }) ∧
    (s.width.bytes ≤ s.cs.length → 2 ^ 31 ≤ littleEndian (s.cs.take s.width.bytes) + 1 →
      Faults .ret s (.targetOutOfRange (littleEndian (s.cs.take s.width.bytes) + 1))) ∧
    (s.cs.length < s.width.bytes → Faults .ret s (.stackUnderflow .call))

/-- R249, R250: a return at Width 1 that finds the call stack as the call left it resumes after the call, if the
call stands below offset 256, and in general at its offset modulo 256, plus 1. -/
def Obligations.ReturnAtWidthOneResumesAfterTheCall : Prop :=
  ∀ s t u : State, exec .call s = .next t → t.status ≠ .faulted → u.cs = t.cs → u.width = .w1 →
    exec .ret u = .next { u with cs := s.cs, pc := s.pc % 256 + 1 } ∧
    (s.pc < 256 → exec .ret u = .next { u with cs := s.cs, pc := s.pc + 1 })

/-! ## Conversion and log -/

/-- R202 (decision D13): every 64-bit value has exactly one decimal rendering, of at most 20 digits. -/
def Obligations.DecimalTextIsUnique : Prop :=
  ∀ v : Nat, v < 2 ^ 64 → ∃! text, IsDecimal text v ∧ text.length ≤ 20

/-- R200 (decision D13): convert pops a Width-wide value and pushes its decimal rendering with the first digit
on top and no terminator, or faults. -/
def Obligations.ConvertPushesTheDecimalText : Prop :=
  DecodesTo .normal 0x03 .conv ∧
  ∀ s : State,
    (s.width.bytes ≤ s.ds.length →
      ∀ text, IsDecimal text (littleEndian (s.ds.take s.width.bytes)) →
        (s.ds.length - s.width.bytes + text.length ≤ s.cfg.dstackCap →
          exec .conv s = .next { s with ds := text ++ s.ds.drop s.width.bytes, pc := s.pc + 1 }) ∧
        (s.cfg.dstackCap < s.ds.length - s.width.bytes + text.length →
          Faults .conv s (.stackOverflow .data))) ∧
    (s.ds.length < s.width.bytes → Faults .conv s (.stackUnderflow .data))

/-- R201 (decision D11 for the bytes of an underflow): debug-log emits the bytes above the first 0x00 in the
order popped and discards that 0x00; with no 0x00 it underflows, and what it emitted stays. -/
def Obligations.LogEmitsUpToTheTerminator : Prop :=
  DecodesTo .normal 0x1E .log ∧
  ∀ s : State,
    (∀ text rest, s.ds = text ++ 0x00 :: rest → (∀ b ∈ text, b ≠ 0x00) →
      exec .log s = .next { s with ds := rest, out := s.out ++ text, pc := s.pc + 1 }) ∧
    ((∀ b ∈ s.ds, b ≠ 0x00) → FaultsWith .log s (.stackUnderflow .data) (s.out ++ s.ds))

/-! ## Which instructions raise which faults -/

/-- R213, R214: the instructions that can raise StackOverflow and StackUnderflow, on each stack, are exactly
those listed. -/
def Obligations.StackFaultsComeFromTheListedInstructions : Prop :=
  ∀ i : Instr, i.wf = true →
    (CanRaise i (· = .stackOverflow .data) ↔
      (∃ lit, i = .pushl lit) ∨ (∃ b, i = .escLit b) ∨ (∃ r, i = loadInstr r) ∨
        i ∈ [Instr.conv, .add, .sub, .pushp, .mrb, .mrs, .escZero]) ∧
    (CanRaise i (· = .stackOverflow .call) ↔ i = .call) ∧
    (CanRaise i (· = .stackUnderflow .data) ↔
      (∃ r, i = storeInstr r) ∨
        i ∈ [Instr.pop, .conv, .jng, .jne, .jmp, .call, .setp, .mwb, .log]) ∧
    (CanRaise i (· = .stackUnderflow .call) ↔ i = .ret)

/-- R211, R215 to R217 (decisions D4, D6, D9): the other four kinds come from exactly these instructions. -/
def Obligations.OtherFaultsComeFromTheListedInstructions : Prop :=
  ∀ i : Instr, i.wf = true →
    (CanRaise i (fun c => ∃ a, c = .memoryFault a) ↔ i ∈ [Instr.setp, .mrb, .mrs, .mwb]) ∧
    (CanRaise i (fun c => ∃ p, c = .truncatedLiteral p) ↔ ∃ lit, i = .pushl lit) ∧
    (CanRaise i (fun c => ∃ t, c = .targetOutOfRange t) ↔ i ∈ [Instr.jng, .jne, .jmp, .call, .ret]) ∧
    (CanRaise i (fun c => ∃ b, c = .invalidOpcode b) ↔ ∃ b, i = .invalid b)

/-! ## The host's side -/

/-- R225, R243, R246: exactly a file that begins with the magic header starts a run, of the bytes after it, from
the reset state; the exit status is 0 for Halted and 1 for Faulted. -/
def Obligations.HostStartsExactlyHeaderedFiles : Prop :=
  (∀ (cfg : Params) (body : List Byte),
    startFile cfg (0x0A :: 0x4D :: 0x56 :: 0x4D :: body) = some (State.start cfg body)) ∧
  (∀ (cfg : Params) (file : List Byte) (s : State), startFile cfg file = some s →
    file = 0x0A :: 0x4D :: 0x56 :: 0x4D :: s.prog) ∧
  exitStatus .halted = some 0 ∧ exitStatus .faulted = some 1
end

