-- ==== Sys2Proof/Laws/Memory.lean ====
section
/-! SUPPORT. The laws of data memory: what a read after a write gives, and that a write keeps the canonical form
and the address range. -/

namespace Sys2Proof.Machine

theorem memory_wf_cons {k : Nat} {v : Byte} {rest : Memory} :
    Memory.wf ((k, v) :: rest) = true ↔
      v ≠ Memory.unlisted ∧ (∀ c ∈ rest, k < c.1) ∧ Memory.wf rest = true := by
  simp [Memory.wf, and_assoc]

/-- An address below every listed one reads as unlisted. -/
theorem read_below {m : Memory} {a : Nat} (h : ∀ c ∈ m, a < c.1) : m.read a = Memory.unlisted := by
  induction m with
  | nil => rfl
  | cons c rest ih =>
    obtain ⟨k, v⟩ := c
    have hk : a < k := h (k, v) (by simp)
    have hr : Memory.read rest a = Memory.unlisted := ih fun c hc => h c (by simp [hc])
    rw [Memory.read, if_neg (by omega), hr]

/-- The entries of a written memory are old ones, or the one written. -/
theorem mem_write {m : Memory} {a : Nat} {b : Byte} {c : Host.Cell} (h : c ∈ m.write a b) :
    c ∈ m ∨ c = (a, b) := by
  induction m with
  | nil => by_cases hb : b = Memory.unlisted <;> simp_all [Memory.write]
  | cons d rest ih =>
    obtain ⟨k, v⟩ := d
    unfold Memory.write at h
    split at h
    · split at h <;> (simp_all; try tauto)
    · split at h
      · split at h <;> (simp_all; try tauto)
      · rcases List.mem_cons.mp h with h | h
        · simp [h]
        · rcases ih h with h | h <;> simp [h]

/-- A write keeps the canonical form. -/
theorem write_wf {m : Memory} (a : Nat) (b : Byte) (h : m.wf = true) : (m.write a b).wf = true := by
  induction m with
  | nil => by_cases hb : b = Memory.unlisted <;> simp_all [Memory.write, Memory.wf]
  | cons d rest ih =>
    obtain ⟨k, v⟩ := d
    obtain ⟨hv, hlt, hr⟩ := memory_wf_cons.mp h
    unfold Memory.write
    split
    · rename_i hak
      split
      · exact h
      · rename_i hb
        refine memory_wf_cons.mpr ⟨hb, ?_, h⟩
        intro c hc
        rcases List.mem_cons.mp hc with rfl | hc
        · exact hak
        · exact hak.trans (hlt c hc)
    · split
      · rename_i _ hak
        split
        · exact hr
        · rename_i hb
          exact memory_wf_cons.mpr ⟨hb, fun c hc => hak ▸ hlt c hc, hr⟩
      · rename_i h1 h2
        refine memory_wf_cons.mpr ⟨hv, ?_, ih hr⟩
        intro c hc
        rcases mem_write hc with hc | rfl
        · exact hlt c hc
        · show k < a
          omega

/-- A write inside memory lists no address outside it. -/
theorem write_below {m : Memory} {a n : Nat} (b : Byte) (ha : a < n) (h : ∀ c ∈ m, c.1 < n) :
    ∀ c ∈ m.write a b, c.1 < n := by
  intro c hc
  rcases mem_write hc with hc | rfl
  · exact h c hc
  · exact ha

/-- Reading after a write: the written byte at its address, and every other byte as before. -/
theorem read_write {m : Memory} (h : m.wf = true) (a : Nat) (b : Byte) (x : Nat) :
    (m.write a b).read x = if x = a then b else m.read x := by
  induction m with
  | nil =>
    by_cases hb : b = Memory.unlisted
    · by_cases hx : x = a <;> simp [Memory.write, Memory.read, hb, hx]
    · rcases eq_or_ne x a with rfl | hx
      · simp [Memory.write, Memory.read, hb]
      · simp [Memory.write, Memory.read, hb, hx, hx.symm]
  | cons d rest ih =>
    obtain ⟨k, v⟩ := d
    obtain ⟨-, hlt, hr⟩ := memory_wf_cons.mp h
    unfold Memory.write
    split
    · rename_i hak
      have hbelow : Memory.read ((k, v) :: rest) a = Memory.unlisted :=
        read_below fun c hc => by
          rcases List.mem_cons.mp hc with rfl | hc
          · exact hak
          · exact hak.trans (hlt c hc)
      split
      · rename_i hb
        by_cases hx : x = a
        · rw [hx, hbelow, if_pos rfl, hb]
        · rw [if_neg hx]
      · rcases eq_or_ne x a with rfl | hx
        · simp [Memory.read]
        · rw [if_neg hx, Memory.read, if_neg hx.symm]
    · split
      · rename_i hak
        subst hak
        have hbelow : Memory.read rest a = Memory.unlisted := read_below hlt
        split
        · rename_i hb
          by_cases hx : x = a
          · rw [hx, hbelow, if_pos rfl, hb]
          · rw [if_neg hx, Memory.read, if_neg (by omega)]
        · rcases eq_or_ne x a with rfl | hx
          · simp [Memory.read]
          · rw [if_neg hx, Memory.read, if_neg hx.symm, Memory.read, if_neg hx.symm]
      · rename_i h1 h2
        have hak : a ≠ k := h2
        by_cases hx : x = k
        · subst hx
          simp [Memory.read, hak.symm]
        · rw [Memory.read, if_neg (Ne.symm hx), ih hr, Memory.read, if_neg (Ne.symm hx)]

/-- Two memories in canonical form that read alike everywhere are equal. -/
theorem memory_ext {m n : Memory} (hm : m.wf = true) (hn : n.wf = true)
    (h : ∀ a, m.read a = n.read a) : m = n := by
  induction m generalizing n with
  | nil =>
    cases n with
    | nil => rfl
    | cons d rest =>
      obtain ⟨k, v⟩ := d
      have := h k
      simp [Memory.read] at this
      exact absurd this.symm (memory_wf_cons.mp hn).1
  | cons c mrest ih =>
    obtain ⟨k, v⟩ := c
    obtain ⟨hv, hlt, hmr⟩ := memory_wf_cons.mp hm
    cases n with
    | nil =>
      have := h k
      simp [Memory.read] at this
      exact absurd this hv
    | cons d nrest =>
      obtain ⟨j, u⟩ := d
      obtain ⟨hu, hjt, hnr⟩ := memory_wf_cons.mp hn
      have hkj : k = j := by
        rcases Nat.lt_trichotomy k j with hk | hk | hk
        · have hb : Memory.read ((j, u) :: nrest) k = Memory.unlisted :=
            read_below fun c hc => by
              rcases List.mem_cons.mp hc with rfl | hc
              · exact hk
              · exact hk.trans (hjt c hc)
          have := h k
          rw [hb, Memory.read, if_pos rfl] at this
          exact absurd this hv
        · exact hk
        · have hb : Memory.read ((k, v) :: mrest) j = Memory.unlisted :=
            read_below fun c hc => by
              rcases List.mem_cons.mp hc with rfl | hc
              · exact hk
              · exact hk.trans (hlt c hc)
          have := h j
          rw [hb, Memory.read, if_pos rfl] at this
          exact absurd this.symm hu
      subst hkj
      have hvu : v = u := by simpa [Memory.read] using h k
      subst hvu
      have hrest : mrest = nrest := ih hmr hnr fun a => by
        by_cases ha : k = a
        · subst ha
          rw [read_below hlt, read_below hjt]
        · simpa [Memory.read, ha] using h a
      rw [hrest]

end Sys2Proof.Machine
end

