-- ==== Sys2Proof/Laws/State.lean ====
section
/-! SUPPORT. One lemma for each field after each named update of the state, so that no proof unfolds one. -/

namespace Sys2Proof.Machine

/-! ## `advance` -/

@[simp] theorem advance_prog (n : Nat) (s : State) : (advance n s).prog = s.prog := rfl
@[simp] theorem advance_cfg (n : Nat) (s : State) : (advance n s).cfg = s.cfg := rfl
@[simp] theorem advance_pc (n : Nat) (s : State) : (advance n s).pc = s.pc + n := rfl
@[simp] theorem advance_regs (n : Nat) (s : State) : (advance n s).regs = s.regs := rfl
@[simp] theorem advance_width (n : Nat) (s : State) : (advance n s).width = s.width := rfl
@[simp] theorem advance_mode (n : Nat) (s : State) : (advance n s).mode = s.mode := rfl
@[simp] theorem advance_mp (n : Nat) (s : State) : (advance n s).mp = s.mp := rfl
@[simp] theorem advance_ds (n : Nat) (s : State) : (advance n s).ds = s.ds := rfl
@[simp] theorem advance_cs (n : Nat) (s : State) : (advance n s).cs = s.cs := rfl
@[simp] theorem advance_mem (n : Nat) (s : State) : (advance n s).mem = s.mem := rfl
@[simp] theorem advance_out (n : Nat) (s : State) : (advance n s).out = s.out := rfl
@[simp] theorem advance_icount (n : Nat) (s : State) : (advance n s).icount = s.icount := rfl
@[simp] theorem advance_status (n : Nat) (s : State) : (advance n s).status = s.status := rfl
@[simp] theorem advance_fault (n : Nat) (s : State) : (advance n s).fault = s.fault := rfl

/-! ## `takeFault` -/

@[simp] theorem takeFault_prog (c : Cause) (s : State) : (takeFault c s).prog = s.prog := rfl
@[simp] theorem takeFault_cfg (c : Cause) (s : State) : (takeFault c s).cfg = s.cfg := rfl
@[simp] theorem takeFault_pc (c : Cause) (s : State) : (takeFault c s).pc = s.pc := rfl
@[simp] theorem takeFault_regs (c : Cause) (s : State) : (takeFault c s).regs = s.regs := rfl
@[simp] theorem takeFault_width (c : Cause) (s : State) : (takeFault c s).width = s.width := rfl
@[simp] theorem takeFault_mode (c : Cause) (s : State) : (takeFault c s).mode = s.mode := rfl
@[simp] theorem takeFault_mp (c : Cause) (s : State) : (takeFault c s).mp = s.mp := rfl
@[simp] theorem takeFault_ds (c : Cause) (s : State) : (takeFault c s).ds = s.ds := rfl
@[simp] theorem takeFault_cs (c : Cause) (s : State) : (takeFault c s).cs = s.cs := rfl
@[simp] theorem takeFault_mem (c : Cause) (s : State) : (takeFault c s).mem = s.mem := rfl
@[simp] theorem takeFault_out (c : Cause) (s : State) : (takeFault c s).out = s.out := rfl
@[simp] theorem takeFault_icount (c : Cause) (s : State) : (takeFault c s).icount = s.icount := rfl
@[simp] theorem takeFault_status (c : Cause) (s : State) : (takeFault c s).status = .faulted := rfl
@[simp] theorem takeFault_fault (c : Cause) (s : State) : (takeFault c s).fault = some { cause := c, position := s.icount } := rfl

/-! ## `writeReg` -/

@[simp] theorem writeReg_prog (r : Reg) (v : Word) (s : State) : (writeReg r v s).prog = s.prog := rfl
@[simp] theorem writeReg_cfg (r : Reg) (v : Word) (s : State) : (writeReg r v s).cfg = s.cfg := rfl
@[simp] theorem writeReg_pc (r : Reg) (v : Word) (s : State) : (writeReg r v s).pc = s.pc := rfl
@[simp] theorem writeReg_regs (r : Reg) (v : Word) (s : State) : (writeReg r v s).regs = s.regs.set r v := rfl
@[simp] theorem writeReg_width (r : Reg) (v : Word) (s : State) : (writeReg r v s).width = s.width := rfl
@[simp] theorem writeReg_mode (r : Reg) (v : Word) (s : State) : (writeReg r v s).mode = s.mode := rfl
@[simp] theorem writeReg_mp (r : Reg) (v : Word) (s : State) : (writeReg r v s).mp = s.mp := rfl
@[simp] theorem writeReg_ds (r : Reg) (v : Word) (s : State) : (writeReg r v s).ds = s.ds := rfl
@[simp] theorem writeReg_cs (r : Reg) (v : Word) (s : State) : (writeReg r v s).cs = s.cs := rfl
@[simp] theorem writeReg_mem (r : Reg) (v : Word) (s : State) : (writeReg r v s).mem = s.mem := rfl
@[simp] theorem writeReg_out (r : Reg) (v : Word) (s : State) : (writeReg r v s).out = s.out := rfl
@[simp] theorem writeReg_icount (r : Reg) (v : Word) (s : State) : (writeReg r v s).icount = s.icount := rfl
@[simp] theorem writeReg_status (r : Reg) (v : Word) (s : State) : (writeReg r v s).status = s.status := rfl
@[simp] theorem writeReg_fault (r : Reg) (v : Word) (s : State) : (writeReg r v s).fault = s.fault := rfl

/-! ## `emit` -/

@[simp] theorem emit_prog (b : Byte) (s : State) : (emit b s).prog = s.prog := rfl
@[simp] theorem emit_cfg (b : Byte) (s : State) : (emit b s).cfg = s.cfg := rfl
@[simp] theorem emit_pc (b : Byte) (s : State) : (emit b s).pc = s.pc := rfl
@[simp] theorem emit_regs (b : Byte) (s : State) : (emit b s).regs = s.regs := rfl
@[simp] theorem emit_width (b : Byte) (s : State) : (emit b s).width = s.width := rfl
@[simp] theorem emit_mode (b : Byte) (s : State) : (emit b s).mode = s.mode := rfl
@[simp] theorem emit_mp (b : Byte) (s : State) : (emit b s).mp = s.mp := rfl
@[simp] theorem emit_ds (b : Byte) (s : State) : (emit b s).ds = s.ds := rfl
@[simp] theorem emit_cs (b : Byte) (s : State) : (emit b s).cs = s.cs := rfl
@[simp] theorem emit_mem (b : Byte) (s : State) : (emit b s).mem = s.mem := rfl
@[simp] theorem emit_out (b : Byte) (s : State) : (emit b s).out = s.out ++ [b] := rfl
@[simp] theorem emit_icount (b : Byte) (s : State) : (emit b s).icount = s.icount := rfl
@[simp] theorem emit_status (b : Byte) (s : State) : (emit b s).status = s.status := rfl
@[simp] theorem emit_fault (b : Byte) (s : State) : (emit b s).fault = s.fault := rfl

/-! ## `State.setStack` -/

@[simp] theorem setStack_prog (s : State) (k : StackId) (bs : List Byte) : (s.setStack k bs).prog = s.prog := by cases k <;> rfl
@[simp] theorem setStack_cfg (s : State) (k : StackId) (bs : List Byte) : (s.setStack k bs).cfg = s.cfg := by cases k <;> rfl
@[simp] theorem setStack_pc (s : State) (k : StackId) (bs : List Byte) : (s.setStack k bs).pc = s.pc := by cases k <;> rfl
@[simp] theorem setStack_regs (s : State) (k : StackId) (bs : List Byte) : (s.setStack k bs).regs = s.regs := by cases k <;> rfl
@[simp] theorem setStack_width (s : State) (k : StackId) (bs : List Byte) : (s.setStack k bs).width = s.width := by cases k <;> rfl
@[simp] theorem setStack_mode (s : State) (k : StackId) (bs : List Byte) : (s.setStack k bs).mode = s.mode := by cases k <;> rfl
@[simp] theorem setStack_mp (s : State) (k : StackId) (bs : List Byte) : (s.setStack k bs).mp = s.mp := by cases k <;> rfl
@[simp] theorem setStack_mem (s : State) (k : StackId) (bs : List Byte) : (s.setStack k bs).mem = s.mem := by cases k <;> rfl
@[simp] theorem setStack_out (s : State) (k : StackId) (bs : List Byte) : (s.setStack k bs).out = s.out := by cases k <;> rfl
@[simp] theorem setStack_icount (s : State) (k : StackId) (bs : List Byte) : (s.setStack k bs).icount = s.icount := by cases k <;> rfl
@[simp] theorem setStack_status (s : State) (k : StackId) (bs : List Byte) : (s.setStack k bs).status = s.status := by cases k <;> rfl
@[simp] theorem setStack_fault (s : State) (k : StackId) (bs : List Byte) : (s.setStack k bs).fault = s.fault := by cases k <;> rfl
@[simp] theorem setStack_data_ds (s : State) (bs : List Byte) : (s.setStack .data bs).ds = bs := rfl
@[simp] theorem setStack_data_cs (s : State) (bs : List Byte) : (s.setStack .data bs).cs = s.cs := rfl
@[simp] theorem setStack_call_ds (s : State) (bs : List Byte) : (s.setStack .call bs).ds = s.ds := rfl
@[simp] theorem setStack_call_cs (s : State) (bs : List Byte) : (s.setStack .call bs).cs = bs := rfl
@[simp] theorem stack_data (s : State) : s.stack .data = s.ds := rfl
@[simp] theorem stack_call (s : State) : s.stack .call = s.cs := rfl
@[simp] theorem stackCap_data (s : State) : s.stackCap .data = s.cfg.dstackCap := rfl
@[simp] theorem stackCap_call (s : State) : s.stackCap .call = s.cfg.cstackCap := rfl
@[simp] theorem stack_setStack (s : State) (k : StackId) (bs : List Byte) : (s.setStack k bs).stack k = bs := by cases k <;> rfl
@[simp] theorem stackCap_setStack (s : State) (j k : StackId) (bs : List Byte) : (s.setStack j bs).stackCap k = s.stackCap k := by cases j <;> cases k <;> rfl
@[simp] theorem setStack_setStack (s : State) (k : StackId) (bs cs : List Byte) : (s.setStack k bs).setStack k cs = s.setStack k cs := by cases k <;> rfl
@[simp] theorem setStack_stack (s : State) (k : StackId) : s.setStack k (s.stack k) = s := by cases k <;> rfl

/-! ## Registers -/

@[simp] theorem get_set_self (x : RegFile) (r : Reg) (v : Word) : (x.set r v).get r = v := by cases r <;> rfl

theorem get_set_other (x : RegFile) {q r : Reg} (v : Word) (h : q ≠ r) : (x.set r v).get q = x.get q := by
  cases q <;> cases r <;> first | rfl | exact absurd rfl h

/-! ## Results -/

@[simp] theorem bind_ok {α β : Type} (x : α) (s : State) (k : α → State → Res β) : (Res.ok x s).bind k = k x s := rfl
@[simp] theorem bind_raised {α β : Type} (c : Cause) (s : State) (k : α → State → Res β) : (Res.raised c s).bind k = .raised c s := rfl
@[simp] theorem finish_ok (s : State) : finish (.ok () s) = .next s := rfl
@[simp] theorem finish_raised (c : Cause) (s : State) : finish (.raised c s) = .next (takeFault c s) := rfl

/-- What a sequence of two primitives can do: go on through both, or raise in the first or in the second. -/
theorem bind_eq_ok {α β : Type} {r : Res α} {k : α → State → Res β} {y : β} {t : State} :
    r.bind k = .ok y t ↔ ∃ x s, r = .ok x s ∧ k x s = .ok y t := by
  cases r <;> simp

theorem bind_eq_raised {α β : Type} {r : Res α} {k : α → State → Res β} {c : Cause} {t : State} :
    r.bind k = .raised c t ↔ r = .raised c t ∨ ∃ x s, r = .ok x s ∧ k x s = .raised c t := by
  cases r <;> simp

/-- What `finish` answers: always a next state, the one the primitives leave or the Faulted one. -/
theorem finish_eq_next {r : Res Unit} {t : State} :
    finish r = .next t ↔ r = .ok () t ∨ ∃ c s, r = .raised c s ∧ t = takeFault c s := by
  cases r with
  | ok x s => cases x; simp
  | raised c s => simp [eq_comm]

end Sys2Proof.Machine
end

