-- ==== Sys2Proof/Laws/Ops.lean ====
section
/-! SUPPORT. For each shared operation, what it answers and when, so that no proof about an instruction unfolds
one: an equation where it goes on, the fault where it does not. -/

namespace Sys2Proof.Machine

/-! ## One byte -/

theorem push_ok {k : StackId} {b : Byte} {s : State} (h : (s.stack k).length < s.stackCap k) :
    push k b s = .ok () (s.setStack k (b :: s.stack k)) := by
  rw [push, if_neg (by omega)]

theorem push_full {k : StackId} {b : Byte} {s : State} (h : s.stackCap k ≤ (s.stack k).length) :
    push k b s = .raised (.stackOverflow k) s := by
  rw [push, if_pos h]

theorem pop_nil {k : StackId} {s : State} (h : s.stack k = []) :
    pop k s = .raised (.stackUnderflow k) s := by
  simp [pop, h]

theorem pop_cons {k : StackId} {s : State} {b : Byte} {rest : List Byte} (h : s.stack k = b :: rest) :
    pop k s = .ok b (s.setStack k rest) := by
  simp [pop, h]

theorem peek_cons {k : StackId} {s : State} {b : Byte} {rest : List Byte} (h : s.stack k = b :: rest) :
    peek k s = .ok b s := by
  simp [peek, h]

theorem memRead_ok {a : Nat} {s : State} (h : a < s.cfg.memSize) : memRead a s = .ok (s.mem.read a) s := by
  rw [memRead, if_neg (by omega)]

theorem memWrite_ok {a : Nat} {b : Byte} {s : State} (h : a < s.cfg.memSize) :
    memWrite a b s = .ok () { s with mem := s.mem.write a b } := by
  rw [memWrite, if_neg (by omega)]

/-- A memory write keeps the canonical form of memory. -/
theorem memWrite_keeps_wf {a : Nat} {b : Byte} {s t : State} (hs : s.mem.wf = true)
    (h : memWrite a b s = .ok () t) : t.mem.wf = true := by
  unfold memWrite at h
  split at h
  · cases h
  · injection h with _ h
    subst h
    exact write_wf _ _ hs

/-- Memory at reset is in canonical form. -/
theorem reset_mem_wf : State.reset.mem.wf = true := rfl

theorem goto_ok {t : Nat} {s : State} (h : t < 2 ^ 31) : goto t s = .ok () { s with pc := t } := by
  rw [goto, if_neg (by rw [targetBound]; omega)]

theorem goto_far {t : Nat} {s : State} (h : 2 ^ 31 ≤ t) : goto t s = .raised (.targetOutOfRange t) s := by
  rw [goto, if_pos (by rw [targetBound]; exact h)]

theorem checkBlock_ok {n : Nat} {s : State} (h : s.mp.toNat + n ≤ s.cfg.memSize) :
    checkBlock n s = .ok () s := by
  rw [checkBlock, if_neg (by omega)]

theorem checkBlock_out {n : Nat} {s : State} (h : s.cfg.memSize < s.mp.toNat + n) :
    checkBlock n s = .raised (.memoryFault (max s.mp.toNat s.cfg.memSize)) s := by
  rw [checkBlock, if_pos h]

/-! ## Runs of bytes on a stack -/

/-- With room for all of them, the bytes are pushed, the first deepest. -/
theorem pushAll_ok {k : StackId} {bs : List Byte} {s : State}
    (h : (s.stack k).length + bs.length ≤ s.stackCap k) :
    pushAll k bs s = .ok () (s.setStack k (bs.reverse ++ s.stack k)) := by
  induction bs generalizing s with
  | nil => simp [pushAll]
  | cons b rest ih =>
    rw [List.length_cons] at h
    rw [pushAll, push_ok (by omega), bind_ok, ih (by simp; omega)]
    simp

/-- Without room for all of them, some push overflows; nothing but that stack has changed. -/
theorem pushAll_full {k : StackId} {bs : List Byte} {s : State} (hb : bs ≠ [])
    (h : s.stackCap k < (s.stack k).length + bs.length) :
    ∃ cs, pushAll k bs s = .raised (.stackOverflow k) (s.setStack k cs) := by
  induction bs generalizing s with
  | nil => exact absurd rfl hb
  | cons b rest ih =>
    by_cases hf : s.stackCap k ≤ (s.stack k).length
    · exact ⟨s.stack k, by rw [pushAll, push_full hf, bind_raised, setStack_stack]⟩
    · rw [List.length_cons] at h
      have hr : rest ≠ [] := by
        rintro rfl
        simp at h
        omega
      obtain ⟨cs, hcs⟩ := ih (s := s.setStack k (b :: s.stack k)) hr (by simp; omega)
      exact ⟨cs, by rw [pushAll, push_ok (by omega), bind_ok, hcs, setStack_setStack]⟩

/-- With enough bytes on the stack, they are popped, the top first. -/
theorem popBytes_ok {k : StackId} {n : Nat} {s : State} (h : n ≤ (s.stack k).length) :
    popBytes k n s = .ok ((s.stack k).take n) (s.setStack k ((s.stack k).drop n)) := by
  induction n generalizing s with
  | zero => simp [popBytes]
  | succ n ih =>
    obtain ⟨b, rest, hs⟩ : ∃ b rest, s.stack k = b :: rest := by
      cases hs : s.stack k with
      | nil => simp [hs] at h
      | cons b rest => exact ⟨b, rest, rfl⟩
    have hn : n ≤ ((s.setStack k rest).stack k).length := by simpa [hs] using h
    rw [popBytes, pop_cons hs, bind_ok, ih hn, bind_ok]
    simp [hs]

/-- With too few bytes on the stack, some pop underflows; nothing but that stack has changed. -/
theorem popBytes_short {k : StackId} {n : Nat} {s : State} (h : (s.stack k).length < n) :
    ∃ cs, popBytes k n s = .raised (.stackUnderflow k) (s.setStack k cs) := by
  induction n generalizing s with
  | zero => omega
  | succ n ih =>
    cases hs : s.stack k with
    | nil => exact ⟨[], by rw [popBytes, pop_nil hs, bind_raised, ← hs, setStack_stack]⟩
    | cons b rest =>
      obtain ⟨cs, hcs⟩ := ih (s := s.setStack k rest) (by simp [hs] at h ⊢; omega)
      exact ⟨cs, by rw [popBytes, pop_cons hs, bind_ok, hcs, bind_raised, setStack_setStack]⟩

/-! ## Width-wide values -/

theorem width_bytes_pos (w : Width) : 0 < w.bytes := by cases w <;> decide

theorem width_bytes_le (w : Width) : w.bytes ≤ 8 := by cases w <;> decide

@[simp] theorem msbFirst_length (v : Word) (n : Nat) : (msbFirst v n).length = n := by
  induction n with
  | zero => rfl
  | succ n ih => simp [msbFirst, ih]

theorem byteOf_eq (v : Word) (i : Nat) : byteOf v i = BitVec.ofNat 8 (v.toNat / 2 ^ (8 * i)) := by
  apply BitVec.eq_of_toNat_eq
  simp [byteOf, Nat.shiftRight_eq_div_pow]

/-- The bytes that `DPushW` pushes lie on the stack as `stackBytes` lists them. -/
theorem msbFirst_reverse (v : Word) (n : Nat) : (msbFirst v n).reverse = stackBytes n v.toNat := by
  induction n with
  | zero => rfl
  | succ n ih =>
    rw [msbFirst, List.reverse_cons, ih, stackBytes, stackBytes, List.range_succ, List.map_append, byteOf_eq]
    rfl

theorem littleEndian_lt (bs : List Byte) : littleEndian bs < 2 ^ (8 * bs.length) := by
  induction bs with
  | nil => simp [littleEndian]
  | cons b rest ih =>
    have hb := b.isLt
    rw [littleEndian, List.length_cons, show 8 * (rest.length + 1) = 8 * rest.length + 8 by ring, pow_add]
    omega

/-- The value `DPopW` rebuilds from at most 8 bytes is their little-endian sum. -/
theorem lsbFirstValue_toNat {bs : List Byte} (h : bs.length ≤ 8) :
    (lsbFirstValue bs).toNat = littleEndian bs := by
  induction bs with
  | nil => rfl
  | cons b rest ih =>
    have hl : rest.length ≤ 7 := by simp at h; omega
    have hr := ih (by omega)
    have hlt : littleEndian rest < 2 ^ 56 :=
      (littleEndian_lt rest).trans_le (Nat.pow_le_pow_right (by omega) (by omega))
    have hb := b.isLt
    have hs : (lsbFirstValue rest <<< 8).toNat = 2 ^ 8 * littleEndian rest := by
      rw [BitVec.toNat_shiftLeft, hr, Nat.shiftLeft_eq, Nat.mod_eq_of_lt (by omega), mul_comm]
    have hz : (b.setWidth 64).toNat = b.toNat := by
      rw [BitVec.toNat_setWidth, Nat.mod_eq_of_lt (by omega)]
    rw [lsbFirstValue, BitVec.toNat_or, hs, hz, Nat.lor_comm, ← Nat.two_pow_add_eq_or_of_lt hb, littleEndian]
    omega

theorem pushW_ok {v : Word} {s : State} (h : s.ds.length + s.width.bytes ≤ s.cfg.dstackCap) :
    pushW v s = .ok () { s with ds := stackBytes s.width.bytes v.toNat ++ s.ds } := by
  rw [pushW, pushAll_ok (by simpa using h), msbFirst_reverse]
  rfl

theorem pushW_full {v : Word} {s : State} (h : s.cfg.dstackCap < s.ds.length + s.width.bytes) :
    ∃ cs, pushW v s = .raised (.stackOverflow .data) { s with ds := cs } := by
  have hp := width_bytes_pos s.width
  refine pushAll_full (k := .data) (fun hn => ?_) (by simpa using h)
  have := congrArg List.length hn
  simp at this
  omega

theorem popW_ok {k : StackId} {s : State} (h : s.width.bytes ≤ (s.stack k).length) :
    popW k s = .ok (lsbFirstValue ((s.stack k).take s.width.bytes))
      (s.setStack k ((s.stack k).drop s.width.bytes)) := by
  rw [popW, popBytes_ok h, bind_ok]

theorem popW_short {k : StackId} {s : State} (h : (s.stack k).length < s.width.bytes) :
    ∃ cs, popW k s = .raised (.stackUnderflow k) (s.setStack k cs) := by
  obtain ⟨cs, hcs⟩ := popBytes_short h
  exact ⟨cs, by rw [popW, hcs, bind_raised]⟩

/-- The value popped at Width `W`, as a number. -/
theorem popped_toNat (w : Width) (bs : List Byte) :
    (lsbFirstValue (bs.take w.bytes)).toNat = littleEndian (bs.take w.bytes) :=
  lsbFirstValue_toNat ((List.length_take_le _ _).trans (width_bytes_le w))

/-- The value popped at Width `W` as a word. -/
theorem popped_eq (w : Width) (bs : List Byte) :
    lsbFirstValue (bs.take w.bytes) = BitVec.ofNat 64 (littleEndian (bs.take w.bytes)) := by
  apply BitVec.eq_of_toNat_eq
  have h := (lsbFirstValue (bs.take w.bytes)).isLt
  rw [BitVec.toNat_ofNat, ← popped_toNat, Nat.mod_eq_of_lt h]

/-! ## Blocks and strings of memory -/

theorem memBytes_succ (m : Memory) (a n : Nat) : memBytes m a (n + 1) = memBytes m a n ++ [m.read (a + n)] := by
  rw [memBytes, memBytes, List.range_succ, List.map_append]
  rfl

/-- Inside memory and with room for it, the block is pushed, its lowest address on top. -/
theorem pushBlock_ok {base n : Nat} {s : State} (hm : base + n ≤ s.cfg.memSize)
    (h : s.ds.length + n ≤ s.cfg.dstackCap) :
    pushBlock base n s = .ok () { s with ds := memBytes s.mem base n ++ s.ds } := by
  induction n generalizing s with
  | zero => rfl
  | succ n ih =>
    rw [pushBlock, memRead_ok (by omega), bind_ok, push_ok (by simp; omega), bind_ok,
      ih (by simp; omega) (by simp; omega)]
    simp [memBytes_succ, State.setStack]

theorem pushBlock_full {base n : Nat} {s : State} (hn : 0 < n) (hm : base + n ≤ s.cfg.memSize)
    (h : s.cfg.dstackCap < s.ds.length + n) :
    ∃ cs, pushBlock base n s = .raised (.stackOverflow .data) { s with ds := cs } := by
  induction n generalizing s with
  | zero => omega
  | succ n ih =>
    rw [pushBlock, memRead_ok (by omega), bind_ok]
    by_cases hf : s.cfg.dstackCap ≤ s.ds.length
    · exact ⟨s.ds, by rw [push_full (by simpa using hf), bind_raised]⟩
    · rw [push_ok (by simp; omega), bind_ok]
      obtain ⟨cs, hcs⟩ := ih (s := s.setStack .data (s.mem.read (base + n) :: s.ds)) (by omega)
        (by simp; omega) (by simp; omega)
      exact ⟨cs, hcs⟩

/-- Inside memory and with enough bytes on the stack, the block is popped into memory, the first byte at its
highest address; every other byte of memory is as it was. -/
theorem popBlock_ok {base n : Nat} {s : State} (hw : s.mem.wf = true) (hm : base + n ≤ s.cfg.memSize)
    (h : n ≤ s.ds.length) :
    ∃ m, popBlock base n s = .ok () { s with mem := m, ds := s.ds.drop n } ∧ m.wf = true ∧
      (∀ i < n, m.read (base + (n - 1 - i)) = s.ds[i]?.getD 0) ∧
      ∀ a, a < base ∨ base + n ≤ a → m.read a = s.mem.read a := by
  induction n generalizing s with
  | zero => exact ⟨s.mem, rfl, hw, by simp, fun _ _ => rfl⟩
  | succ n ih =>
    cases hs : s.ds with
    | nil => simp [hs] at h
    | cons b rest =>
      rw [popBlock, pop_cons (b := b) (rest := rest) (by simpa using hs), bind_ok, memWrite_ok (by simp; omega), bind_ok]
      obtain ⟨m, he, hmw, hin, hout⟩ := ih
        (s := { s.setStack .data rest with mem := (s.setStack .data rest).mem.write (base + n) b })
        (write_wf _ _ (by simpa using hw)) (by simp; omega) (by simp [hs] at h ⊢; exact h)
      refine ⟨m, ?_, hmw, ?_, ?_⟩
      · rw [he]
        simp [State.setStack]
      · intro i hi
        cases i with
        | zero =>
          rw [hout _ (by omega)]
          simp [read_write hw]
        | succ i =>
          have := hin i (by omega)
          rw [show n + 1 - 1 - (i + 1) = n - 1 - i by omega, this]
          simp
      · intro a ha
        rw [hout a (by omega)]
        simp only [setStack_mem]
        rw [read_write hw, if_neg (by omega)]

theorem popBlock_short {base n : Nat} {s : State} (hm : base + n ≤ s.cfg.memSize) (h : s.ds.length < n) :
    ∃ m cs, popBlock base n s = .raised (.stackUnderflow .data) { s with mem := m, ds := cs } := by
  induction n generalizing s with
  | zero => omega
  | succ n ih =>
    cases hs : s.ds with
    | nil => exact ⟨s.mem, s.ds, by rw [popBlock, pop_nil (by simpa using hs), bind_raised]⟩
    | cons b rest =>
      rw [popBlock, pop_cons (b := b) (rest := rest) (by simpa using hs), bind_ok, memWrite_ok (by simp; omega), bind_ok]
      obtain ⟨m, cs, he⟩ := ih
        (s := { s.setStack .data rest with mem := (s.setStack .data rest).mem.write (base + n) b })
        (by simp; omega) (by simp [hs] at h ⊢; exact h)
      exact ⟨m, cs, by rw [he]; simp [State.setStack]⟩

/-- Whatever it answers, a block pop changes only memory and the data stack, keeps the canonical form and the
address range, and never grows the data stack. -/
theorem popBlock_frame {base n : Nat} {s : State} {r : Res Unit} (h : popBlock base n s = r) :
    ∃ m cs, (r = .ok () { s with mem := m, ds := cs } ∨ ∃ c, r = .raised c { s with mem := m, ds := cs }) ∧
      (s.mem.wf = true → m.wf = true) ∧ cs.length ≤ s.ds.length ∧
      ((∀ c ∈ s.mem, c.1 < s.cfg.memSize) → ∀ c ∈ m, c.1 < s.cfg.memSize) := by
  induction n generalizing s with
  | zero => exact ⟨s.mem, s.ds, .inl h.symm, id, le_rfl, id⟩
  | succ n ih =>
    cases hs : s.ds with
    | nil =>
      rw [popBlock, pop_nil (by simpa using hs), bind_raised] at h
      exact ⟨s.mem, s.ds, .inr ⟨_, h.symm⟩, id, by simp [hs], id⟩
    | cons b rest =>
      rw [popBlock, pop_cons (b := b) (rest := rest) (by simpa using hs), bind_ok] at h
      by_cases ha : s.cfg.memSize ≤ base + n
      · rw [memWrite, if_pos (by simpa using ha), bind_raised] at h
        exact ⟨s.mem, rest, .inr ⟨_, h.symm⟩, id, by simp, id⟩
      · rw [memWrite_ok (by simp; omega), bind_ok] at h
        obtain ⟨m, cs, hr, hw, hc, hb⟩ := ih h
        refine ⟨m, cs, ?_, fun h => hw (write_wf _ _ (by simpa using h)), by simp at hc ⊢; omega,
          fun h => hb (write_below _ (by simp; omega) (by simpa using h))⟩
        rcases hr with hr | ⟨c, hr⟩
        · exact .inl (by rw [hr]; simp [State.setStack])
        · exact .inr ⟨c, by rw [hr]; simp [State.setStack]⟩

/-- Where the first 0x00 at or after `q` is `n` bytes on and inside memory, the scan answers the bytes before
it. -/
theorem scanString_ok {fuel q n : Nat} {s : State} (hn : n < fuel) (hz : s.mem.read (q + n) = 0)
    (hnz : ∀ i < n, s.mem.read (q + i) ≠ 0) :
    scanString fuel q s = .ok (memBytes s.mem q n) s := by
  induction n generalizing fuel q with
  | zero =>
    obtain ⟨f, rfl⟩ := Nat.exists_eq_succ_of_ne_zero (show fuel ≠ 0 by omega)
    rw [scanString, if_pos (by simpa using hz)]
    rfl
  | succ n ih =>
    obtain ⟨f, rfl⟩ := Nat.exists_eq_succ_of_ne_zero (show fuel ≠ 0 by omega)
    rw [scanString, if_neg (by simpa using hnz 0 (by omega)),
      ih (by omega) (by rw [show q + 1 + n = q + (n + 1) by omega]; exact hz)
        (fun i hi => by rw [show q + 1 + i = q + (i + 1) by omega]; exact hnz _ (by omega)), bind_ok]
    simp only [memBytes, List.range_succ_eq_map, List.map_cons, List.map_map]
    simp only [Function.comp_def, Nat.add_zero]
    congr 2
    apply List.map_congr_left
    intro i _
    rw [show q + 1 + i = q + (i + 1) by omega]

/-- Where no byte from `q` on is 0x00, the scan faults at the first address past memory. -/
theorem scanString_none {fuel q : Nat} {s : State} (hnz : ∀ i < fuel, s.mem.read (q + i) ≠ 0) :
    scanString fuel q s = .raised (.memoryFault (q + fuel)) s := by
  induction fuel generalizing q with
  | zero => rfl
  | succ f ih =>
    rw [scanString, if_neg (by simpa using hnz 0 (by omega)),
      ih (fun i hi => by rw [show q + 1 + i = q + (i + 1) by omega]; exact hnz _ (by omega)), bind_raised]
    rw [show q + 1 + f = q + (f + 1) by omega]

/-- Whatever it answers, a scan leaves the state as it was. -/
theorem scanString_frame {fuel q : Nat} {s : State} :
    (∃ bs, scanString fuel q s = .ok bs s) ∨ ∃ a, scanString fuel q s = .raised (.memoryFault a) s := by
  induction fuel generalizing q with
  | zero => exact .inr ⟨q, rfl⟩
  | succ f ih =>
    rw [scanString]
    split
    · exact .inl ⟨[], rfl⟩
    · rcases ih (q := q + 1) with ⟨bs, h⟩ | ⟨a, h⟩
      · exact .inl ⟨_, by rw [h, bind_ok]⟩
      · exact .inr ⟨a, by rw [h, bind_raised]⟩

/-! ## Everything each operation can do -/

/-- A push goes on with the byte on a stack within its capacity, or overflows in the state it found. -/
theorem push_cases (k : StackId) (b : Byte) (s : State) :
    (push k b s = .ok () (s.setStack k (b :: s.stack k)) ∧ (s.stack k).length < s.stackCap k) ∨
      push k b s = .raised (.stackOverflow k) s := by
  by_cases h : (s.stack k).length < s.stackCap k
  · exact .inl ⟨push_ok h, h⟩
  · exact .inr (push_full (by omega))

/-- A pop goes on with the top byte and the stack without it, or underflows in the state it found. -/
theorem pop_cases (k : StackId) (s : State) :
    (∃ b rest, s.stack k = b :: rest ∧ pop k s = .ok b (s.setStack k rest)) ∨
      pop k s = .raised (.stackUnderflow k) s := by
  cases h : s.stack k with
  | nil => exact .inr (pop_nil h)
  | cons b rest => exact .inl ⟨b, rest, rfl, pop_cons h⟩

theorem pushAll_cases (k : StackId) (bs : List Byte) (s : State) :
    (pushAll k bs s = .ok () (s.setStack k (bs.reverse ++ s.stack k)) ∧
        (bs = [] ∨ (s.stack k).length + bs.length ≤ s.stackCap k)) ∨
      ∃ cs, pushAll k bs s = .raised (.stackOverflow k) (s.setStack k cs) := by
  by_cases hb : bs = []
  · subst hb
    exact .inl ⟨by simp [pushAll], .inl rfl⟩
  · by_cases h : (s.stack k).length + bs.length ≤ s.stackCap k
    · exact .inl ⟨pushAll_ok h, .inr h⟩
    · exact .inr (pushAll_full hb (by omega))

/-- A Width-wide push goes on with `W` bytes on the data stack within its capacity, or overflows having changed
nothing but the data stack. -/
theorem pushW_cases (v : Word) (s : State) :
    (pushW v s = .ok () { s with ds := stackBytes s.width.bytes v.toNat ++ s.ds } ∧
        s.ds.length + s.width.bytes ≤ s.cfg.dstackCap) ∨
      ∃ cs, pushW v s = .raised (.stackOverflow .data) { s with ds := cs } := by
  by_cases h : s.ds.length + s.width.bytes ≤ s.cfg.dstackCap
  · exact .inl ⟨pushW_ok h, h⟩
  · exact .inr (pushW_full (by omega))

/-- A Width-wide pop goes on without `W` bytes of the stack, or underflows having changed nothing but that
stack. -/
theorem popW_cases (k : StackId) (s : State) :
    (popW k s = .ok (lsbFirstValue ((s.stack k).take s.width.bytes))
        (s.setStack k ((s.stack k).drop s.width.bytes)) ∧ s.width.bytes ≤ (s.stack k).length) ∨
      ∃ cs, popW k s = .raised (.stackUnderflow k) (s.setStack k cs) := by
  by_cases h : s.width.bytes ≤ (s.stack k).length
  · exact .inl ⟨popW_ok h, h⟩
  · exact .inr (popW_short (by omega))

/-- A block push goes on with the block on the data stack, overflows, or faults outside memory; it changes
nothing but the data stack. -/
theorem pushBlock_cases {base n : Nat} {s : State} (hm : base + n ≤ s.cfg.memSize) :
    (pushBlock base n s = .ok () { s with ds := memBytes s.mem base n ++ s.ds } ∧
        (n = 0 ∨ s.ds.length + n ≤ s.cfg.dstackCap)) ∨
      ∃ cs, pushBlock base n s = .raised (.stackOverflow .data) { s with ds := cs } := by
  rcases Nat.eq_zero_or_pos n with rfl | hn
  · exact .inl ⟨rfl, .inl rfl⟩
  · by_cases h : s.ds.length + n ≤ s.cfg.dstackCap
    · exact .inl ⟨pushBlock_ok hm h, .inr h⟩
    · exact .inr (pushBlock_full hn hm (by omega))

theorem checkBlock_cases (n : Nat) (s : State) :
    (checkBlock n s = .ok () s ∧ s.mp.toNat + n ≤ s.cfg.memSize) ∨
      checkBlock n s = .raised (.memoryFault (max s.mp.toNat s.cfg.memSize)) s := by
  by_cases h : s.mp.toNat + n ≤ s.cfg.memSize
  · exact .inl ⟨checkBlock_ok h, h⟩
  · exact .inr (checkBlock_out (by omega))

theorem goto_cases (t : Nat) (s : State) :
    goto t s = .ok () { s with pc := t } ∨ goto t s = .raised (.targetOutOfRange t) s := by
  by_cases h : t < 2 ^ 31
  · exact .inl (goto_ok h)
  · exact .inr (goto_far (by omega))

/-! ## Debug-log -/

/-- The loop emits the bytes above the first 0x00, in order, and discards that 0x00. -/
theorem logLoop_ok {s : State} {text rest : List Byte} {n : Nat} (hz : ∀ b ∈ text, b ≠ 0)
    (hs : s.ds = text ++ 0 :: rest) (hn : text.length < n) :
    logLoop n s = .ok () { s with ds := rest, out := s.out ++ text } := by
  induction text generalizing s n with
  | nil =>
    obtain ⟨f, rfl⟩ := Nat.exists_eq_succ_of_ne_zero (show n ≠ 0 by simp at hn; omega)
    have hs' : s.stack .data = 0 :: rest := by simpa using hs
    rw [logLoop, peek_cons hs', bind_ok, pop_cons hs', bind_ok, if_pos rfl]
    simp [State.setStack]
  | cons b text ih =>
    obtain ⟨f, rfl⟩ := Nat.exists_eq_succ_of_ne_zero (show n ≠ 0 by omega)
    have hs' : s.stack .data = b :: (text ++ 0 :: rest) := by simpa using hs
    rw [logLoop, peek_cons hs', bind_ok, pop_cons hs', bind_ok, if_neg (hz b (by simp)),
      ih (fun c hc => hz c (by simp [hc])) (by simp) (by simp at hn; omega)]
    simp [emit, State.setStack]

/-- With no 0x00 on the stack, the loop emits every byte and underflows. -/
theorem logLoop_short {s : State} (hz : ∀ b ∈ s.ds, b ≠ 0) :
    logLoop s.ds.length s = .raised (.stackUnderflow .data) { s with ds := [], out := s.out ++ s.ds } := by
  generalize hl : s.ds = text at hz ⊢
  induction text generalizing s with
  | nil =>
    obtain ⟨⟩ := s
    simp_all [logLoop]
  | cons b text ih =>
    have hs' : s.stack .data = b :: text := by simpa using hl
    rw [List.length_cons, logLoop, peek_cons hs', bind_ok, pop_cons hs', bind_ok, if_neg (hz b (by simp)),
      ih (by simp) (fun c hc => hz c (by simp [hc]))]
    simp [emit, State.setStack]

/-- Whatever it answers, the loop shortens the data stack, only appends to the output, and changes nothing
else. -/
theorem logLoop_frame {n : Nat} {s : State} {r : Res Unit} (h : logLoop n s = r) :
    ∃ cs bs, cs.length ≤ s.ds.length ∧
      (r = .ok () { s with ds := cs, out := s.out ++ bs } ∨
        r = .raised (.stackUnderflow .data) { s with ds := cs, out := s.out ++ bs }) := by
  induction n generalizing s with
  | zero => exact ⟨s.ds, [], le_rfl, .inr (by rw [← h]; simp [logLoop])⟩
  | succ n ih =>
    cases hs : s.ds with
    | nil => exact ⟨s.ds, [], by simp [hs], .inr (by rw [← h]; obtain ⟨⟩ := s; simp_all [logLoop, peek])⟩
    | cons b rest =>
      have hs' : s.stack .data = b :: rest := by simpa using hs
      rw [logLoop, peek_cons hs', bind_ok, pop_cons hs', bind_ok] at h
      split at h
      · exact ⟨rest, [], by simp, .inl (by rw [← h]; simp [State.setStack])⟩
      · obtain ⟨cs, bs, hc, hr⟩ := ih h
        refine ⟨cs, b :: bs, by simp at hc ⊢; omega, ?_⟩
        rcases hr with hr | hr
        · exact .inl (by rw [hr]; simp [emit, State.setStack])
        · exact .inr (by rw [hr]; simp [emit, State.setStack])

end Sys2Proof.Machine
end

