-- ==== Sys2Proof/Laws/PerInstr.lean ====
section
/-! SUPPORT. Facts about every instruction, one lemma for each constructor. -/

namespace Sys2Proof.Laws

/-- The length rule of spec 30_encoding.md R90 and R96: an instruction that the encoding has in mode `m` at
Width `w` is one byte long, but for 0x01, which is `1 + W` bytes long; in Escape mode every one is one byte
long. -/
def EncodedLength.Statement (i : Instr) : Prop :=
  ∀ (m : Mode) (w : Width), i.wfIn m w = true →
    (encode i).length = if m = .normal ∧ (encode i).head? = some 0x01 then 1 + w.bytes else 1

theorem EncodedLength.esc : EncodedLength.Statement .esc := by
  intro m w h
  cases m <;> rfl

theorem EncodedLength.pushl (lit : List Byte) : EncodedLength.Statement (.pushl lit) := by
  intro m w h
  cases m <;> simp_all [encode, Instr.wfIn, Instr.mode, Instr.fits, Nat.add_comm]

theorem EncodedLength.pop : EncodedLength.Statement .pop := by
  intro m w h
  cases m <;> rfl

theorem EncodedLength.conv : EncodedLength.Statement .conv := by
  intro m w h
  cases m <;> rfl

theorem EncodedLength.nop05 : EncodedLength.Statement .nop05 := by
  intro m w h
  cases m <;> rfl

theorem EncodedLength.add : EncodedLength.Statement .add := by
  intro m w h
  cases m <;> rfl

theorem EncodedLength.sub : EncodedLength.Statement .sub := by
  intro m w h
  cases m <;> rfl

theorem EncodedLength.jng : EncodedLength.Statement .jng := by
  intro m w h
  cases m <;> rfl

theorem EncodedLength.jne : EncodedLength.Statement .jne := by
  intro m w h
  cases m <;> rfl

theorem EncodedLength.nop0A : EncodedLength.Statement .nop0A := by
  intro m w h
  cases m <;> rfl

theorem EncodedLength.nop0B : EncodedLength.Statement .nop0B := by
  intro m w h
  cases m <;> rfl

theorem EncodedLength.jmp : EncodedLength.Statement .jmp := by
  intro m w h
  cases m <;> rfl

theorem EncodedLength.call : EncodedLength.Statement .call := by
  intro m w h
  cases m <;> rfl

theorem EncodedLength.halt : EncodedLength.Statement .halt := by
  intro m w h
  cases m <;> rfl

theorem EncodedLength.ret : EncodedLength.Statement .ret := by
  intro m w h
  cases m <;> rfl

theorem EncodedLength.setp : EncodedLength.Statement .setp := by
  intro m w h
  cases m <;> rfl

theorem EncodedLength.nop11 : EncodedLength.Statement .nop11 := by
  intro m w h
  cases m <;> rfl

theorem EncodedLength.pushp : EncodedLength.Statement .pushp := by
  intro m w h
  cases m <;> rfl

theorem EncodedLength.nop13 : EncodedLength.Statement .nop13 := by
  intro m w h
  cases m <;> rfl

theorem EncodedLength.mrb : EncodedLength.Statement .mrb := by
  intro m w h
  cases m <;> rfl

theorem EncodedLength.mrs : EncodedLength.Statement .mrs := by
  intro m w h
  cases m <;> rfl

theorem EncodedLength.mwb : EncodedLength.Statement .mwb := by
  intro m w h
  cases m <;> rfl

theorem EncodedLength.w1 : EncodedLength.Statement .w1 := by
  intro m w h
  cases m <;> rfl

theorem EncodedLength.w2 : EncodedLength.Statement .w2 := by
  intro m w h
  cases m <;> rfl

theorem EncodedLength.w4 : EncodedLength.Statement .w4 := by
  intro m w h
  cases m <;> rfl

theorem EncodedLength.w8 : EncodedLength.Statement .w8 := by
  intro m w h
  cases m <;> rfl

theorem EncodedLength.log : EncodedLength.Statement .log := by
  intro m w h
  cases m <;> rfl

theorem EncodedLength.nop1F : EncodedLength.Statement .nop1F := by
  intro m w h
  cases m <;> rfl

theorem EncodedLength.stA : EncodedLength.Statement .stA := by
  intro m w h
  cases m <;> rfl

theorem EncodedLength.ldA : EncodedLength.Statement .ldA := by
  intro m w h
  cases m <;> rfl

theorem EncodedLength.stB : EncodedLength.Statement .stB := by
  intro m w h
  cases m <;> rfl

theorem EncodedLength.ldB : EncodedLength.Statement .ldB := by
  intro m w h
  cases m <;> rfl

theorem EncodedLength.stC : EncodedLength.Statement .stC := by
  intro m w h
  cases m <;> rfl

theorem EncodedLength.ldC : EncodedLength.Statement .ldC := by
  intro m w h
  cases m <;> rfl

theorem EncodedLength.stD : EncodedLength.Statement .stD := by
  intro m w h
  cases m <;> rfl

theorem EncodedLength.ldD : EncodedLength.Statement .ldD := by
  intro m w h
  cases m <;> rfl

theorem EncodedLength.stE : EncodedLength.Statement .stE := by
  intro m w h
  cases m <;> rfl

theorem EncodedLength.ldE : EncodedLength.Statement .ldE := by
  intro m w h
  cases m <;> rfl

theorem EncodedLength.stF : EncodedLength.Statement .stF := by
  intro m w h
  cases m <;> rfl

theorem EncodedLength.ldF : EncodedLength.Statement .ldF := by
  intro m w h
  cases m <;> rfl

theorem EncodedLength.stG : EncodedLength.Statement .stG := by
  intro m w h
  cases m <;> rfl

theorem EncodedLength.ldG : EncodedLength.Statement .ldG := by
  intro m w h
  cases m <;> rfl

theorem EncodedLength.stH : EncodedLength.Statement .stH := by
  intro m w h
  cases m <;> rfl

theorem EncodedLength.ldH : EncodedLength.Statement .ldH := by
  intro m w h
  cases m <;> rfl

theorem EncodedLength.escExit : EncodedLength.Statement .escExit := by
  intro m w h
  cases m <;> rfl

theorem EncodedLength.escZero : EncodedLength.Statement .escZero := by
  intro m w h
  cases m <;> rfl

theorem EncodedLength.escLit (b : Byte) : EncodedLength.Statement (.escLit b) := by
  intro m w h
  cases m <;> simp_all [encode, Instr.wfIn, Instr.mode]

theorem EncodedLength.invalid (b : Byte) : EncodedLength.Statement (.invalid b) := by
  intro m w h
  have hb : b ≠ 0x01 := by
    rintro rfl
    exact absurd h (by cases m <;> cases w <;> decide)
  have hb' : ¬ b = 1#8 := hb
  simp [encode, hb']

end Sys2Proof.Laws
end

