-- ==== Sys2Proof/Tests/Slice0.lean ====
section
/-! SUPPORT. The model's own tests: ill-formed terms that the checks refuse, the words of the opcode maps, one
step of each family on the values of spec/95_test_vectors.md, and a witness for the hypotheses of every
statement. -/

namespace Sys2Proof.Tests

open Sys2Proof.Machine

/-! ## Ill-formed terms -/

theorem test_wf_refuses_literal_length : (Instr.pushl [1, 2, 3]).wf = false := by decide
theorem test_wf_refuses_escape_zero : (Instr.escLit 0x00).wf = false := by decide
theorem test_wf_refuses_escape_ff : (Instr.escLit 0xFF).wf = false := by decide
theorem test_wf_refuses_valid_opcode : (Instr.invalid 0x05).wf = false := by decide
theorem test_wf_refuses_wrong_mode : Instr.halt.wfIn .escape .w1 = false := by decide
theorem test_wf_refuses_wrong_width : (Instr.pushl [1, 2]).wfIn .normal .w4 = false := by decide

/-! ## Words of the opcode maps (R97, R98, R100), each byte written from the map -/

theorem test_decode_esc : decode .normal .w1 [0x00] = .ok .esc [] := by decide
theorem test_decode_pop : decode .normal .w1 [0x02] = .ok .pop [] := by decide
theorem test_decode_conv : decode .normal .w1 [0x03] = .ok .conv [] := by decide
theorem test_decode_nop05 : decode .normal .w1 [0x05] = .ok .nop05 [] := by decide
theorem test_decode_add : decode .normal .w1 [0x06] = .ok .add [] := by decide
theorem test_decode_sub : decode .normal .w1 [0x07] = .ok .sub [] := by decide
theorem test_decode_jng : decode .normal .w1 [0x08] = .ok .jng [] := by decide
theorem test_decode_jne : decode .normal .w1 [0x09] = .ok .jne [] := by decide
theorem test_decode_nop0A : decode .normal .w1 [0x0A] = .ok .nop0A [] := by decide
theorem test_decode_nop0B : decode .normal .w1 [0x0B] = .ok .nop0B [] := by decide
theorem test_decode_jmp : decode .normal .w1 [0x0C] = .ok .jmp [] := by decide
theorem test_decode_call : decode .normal .w1 [0x0D] = .ok .call [] := by decide
theorem test_decode_halt : decode .normal .w1 [0x0E] = .ok .halt [] := by decide
theorem test_decode_ret : decode .normal .w1 [0x0F] = .ok .ret [] := by decide
theorem test_decode_setp : decode .normal .w1 [0x10] = .ok .setp [] := by decide
theorem test_decode_nop11 : decode .normal .w1 [0x11] = .ok .nop11 [] := by decide
theorem test_decode_pushp : decode .normal .w1 [0x12] = .ok .pushp [] := by decide
theorem test_decode_nop13 : decode .normal .w1 [0x13] = .ok .nop13 [] := by decide
theorem test_decode_mrb : decode .normal .w1 [0x14] = .ok .mrb [] := by decide
theorem test_decode_mrs : decode .normal .w1 [0x15] = .ok .mrs [] := by decide
theorem test_decode_mwb : decode .normal .w1 [0x16] = .ok .mwb [] := by decide
theorem test_decode_w1 : decode .normal .w1 [0x1A] = .ok .w1 [] := by decide
theorem test_decode_w2 : decode .normal .w1 [0x1B] = .ok .w2 [] := by decide
theorem test_decode_w4 : decode .normal .w1 [0x1C] = .ok .w4 [] := by decide
theorem test_decode_w8 : decode .normal .w1 [0x1D] = .ok .w8 [] := by decide
theorem test_decode_log : decode .normal .w1 [0x1E] = .ok .log [] := by decide
theorem test_decode_nop1F : decode .normal .w1 [0x1F] = .ok .nop1F [] := by decide
theorem test_decode_stA : decode .normal .w1 [0x20] = .ok .stA [] := by decide
theorem test_decode_ldA : decode .normal .w1 [0x21] = .ok .ldA [] := by decide
theorem test_decode_stB : decode .normal .w1 [0x22] = .ok .stB [] := by decide
theorem test_decode_ldB : decode .normal .w1 [0x23] = .ok .ldB [] := by decide
theorem test_decode_stC : decode .normal .w1 [0x24] = .ok .stC [] := by decide
theorem test_decode_ldC : decode .normal .w1 [0x25] = .ok .ldC [] := by decide
theorem test_decode_stD : decode .normal .w1 [0x26] = .ok .stD [] := by decide
theorem test_decode_ldD : decode .normal .w1 [0x27] = .ok .ldD [] := by decide
theorem test_decode_stE : decode .normal .w1 [0x28] = .ok .stE [] := by decide
theorem test_decode_ldE : decode .normal .w1 [0x29] = .ok .ldE [] := by decide
theorem test_decode_stF : decode .normal .w1 [0x2A] = .ok .stF [] := by decide
theorem test_decode_ldF : decode .normal .w1 [0x2B] = .ok .ldF [] := by decide
theorem test_decode_stG : decode .normal .w1 [0x2C] = .ok .stG [] := by decide
theorem test_decode_ldG : decode .normal .w1 [0x2D] = .ok .ldG [] := by decide
theorem test_decode_stH : decode .normal .w1 [0x2E] = .ok .stH [] := by decide
theorem test_decode_ldH : decode .normal .w1 [0x2F] = .ok .ldH [] := by decide
theorem test_decode_pushl : decode .normal .w4 [0x01, 0xDE, 0xAD, 0xBE, 0xEF, 0x0E] = .ok (.pushl [0xDE, 0xAD, 0xBE, 0xEF]) [0x0E] := by decide
theorem test_decode_escExit : decode .escape .w1 [0x00] = .ok .escExit [] := by decide
theorem test_decode_escZero : decode .escape .w1 [0xFF] = .ok .escZero [] := by decide
theorem test_decode_escLit : decode .escape .w1 [0x01, 0x0E] = .ok (.escLit 0x01) [0x0E] := by decide
theorem test_decode_invalid_04 : decode .normal .w1 [0x04] = .ok (.invalid 0x04) [] := by decide
theorem test_decode_invalid_17 : decode .normal .w1 [0x17] = .ok (.invalid 0x17) [] := by decide
theorem test_decode_invalid_30 : decode .normal .w1 [0x30] = .ok (.invalid 0x30) [] := by decide
theorem test_decode_invalid_FF : decode .normal .w1 [0xFF] = .ok (.invalid 0xFF) [] := by decide
theorem test_decode_nothing : decode .normal .w1 [] = .rejected .noByte := by decide
theorem test_table_word_pushl : decodeTableWord 8 0x01 = some (.pushl [0x00]) := by decide
theorem test_table_word_add : decodeTableWord 8 0x06 = some .add := by decide
/-- `lits0 "Hi"` is the byte string of R103. -/
theorem test_asm_lits0 : asmLits0 [0x48, 0x69] = [0x00, 0xFF, 0x69, 0x48, 0x00] := by decide

/-! ## One step on a small state -/

/-- What is seen of the state after an instruction: the PC, both stacks and the fault's cause. -/
structure Seen where
  pc : Nat
  ds : List Byte
  cs : List Byte
  cause : Option Cause
  deriving DecidableEq, Repr

def see (o : Host.Outcome State Fault Refusal) : Option Seen :=
  match o with
  | .next t => some { pc := t.pc, ds := t.ds, cs := t.cs, cause := t.fault.map FaultRecord.cause }
  | .fault _ => none
  | .refused _ => none

/-- The state after an instruction that answers one, to look at one field of it. -/
def after (o : Host.Outcome State Fault Refusal) : State :=
  match o with
  | .next t => t
  | .fault _ => State.reset
  | .refused _ => State.reset

/-- The reset state with a data stack, top first, a Width and a program. -/
def mk (ds : List Byte) (w : Width) (prog : List Byte) : State :=
  { State.reset with ds := ds, width := w, prog := prog }

/-- `mk` with registers A and B. -/
def mkAB (a b : Word) (ds : List Byte) (w : Width) : State :=
  { mk ds w [] with regs := { State.reset.regs with a := a, b := b } }

/-- `mk` with MemoryPointer and memory. -/
def mkM (mp : Word) (m : Memory) (ds : List Byte) (w : Width) : State :=
  { mk ds w [] with mp := mp, mem := m }

/-- `mk` with stacks of 2 bytes at most and a memory of 4 bytes. -/
def tiny (ds : List Byte) (w : Width) (prog : List Byte) : State :=
  { mk ds w prog with
    cfg := { memSize := 4, dstackCap := 2, cstackCap := 2, regReset := 1, mpReset := 1 } }

/-- V-ESC-1, V-ESC-2. -/
theorem test_esc_enters : (after (step (mk [] .w1 [0x00, 0x0E]))).mode = .escape := by decide
theorem test_escLit_halt_byte : see (step { mk [] .w1 [0x0E] with mode := .escape }) = some ⟨1, [0x0E], [], none⟩ := by decide
/-- V-ESC-5, V-ESC-1. -/
theorem test_escZero : see (step { mk [] .w1 [0xFF] with mode := .escape }) = some ⟨1, [0x00], [], none⟩ := by decide
theorem test_escExit : (after (step { mk [] .w1 [0x00] with mode := .escape })).mode = .normal := by decide
/-- V-INV-2, and the position of V-INV-1. -/
theorem test_invalid : (after (step (mk [] .w1 [0x30]))).fault = some ⟨.invalidOpcode 0x30, 1⟩ := by decide
theorem test_invalid_position : (after (step { mk [] .w1 [0x05, 0x04] with pc := 1, icount := 1 })).fault = some ⟨.invalidOpcode 0x04, 2⟩ := by decide
/-- V-END-1: an empty program halts at once and counts nothing. -/
theorem test_empty_program : (after (step State.reset)).status = .halted ∧ (after (step State.reset)).icount = 0 := by decide
/-- V-STK-1, V-STK-4. -/
theorem test_pushl : see (step (mk [] .w1 [0x01, 0x00])) = some ⟨2, [0x00], [], none⟩ := by decide
theorem test_pushl_truncated : (after (step { mk [] .w2 [0x1B, 0x01, 0x12] with pc := 1, icount := 1 })).fault = some ⟨.truncatedLiteral 1, 2⟩ := by decide
/-- V-STK-6, V-STK-3. -/
theorem test_pop : see (exec .pop (mk [0x34, 0x12] .w2 [])) = some ⟨1, [0x12], [], none⟩ := by decide
theorem test_pop_empty : see (exec .pop State.reset) = some ⟨0, [], [], some (.stackUnderflow .data)⟩ := by decide
/-- V-W-1. -/
theorem test_w1 : (after (exec .w1 (mk [] .w4 []))).width = .w1 := by decide
theorem test_w8 : (after (exec .w8 (mk [] .w2 []))).width = .w8 := by decide
/-- V-REG-1, V-REG-4. -/
theorem test_stA_clears_high_bytes : (after (exec .stA (mkAB 0x1234 0 [0x56] .w1))).regs.a = 0x56 := by decide
theorem test_stH_wide : (after (exec .stH (mk [8, 7, 6, 5, 4, 3, 2, 1] .w8 []))).regs.h = 0x0102030405060708 := by decide
/-- V-REG-2, V-REG-3. -/
theorem test_ldA_low_byte : see (exec .ldA (mkAB 0x1234 0 [] .w1)) = some ⟨1, [0x34], [], none⟩ := by decide
theorem test_ldH_reset : see (exec .ldH (mk [] .w4 [])) = some ⟨1, [1, 0, 0, 0], [], none⟩ := by decide
/-- R152 and R153 use their own register. -/
theorem test_stB : (after (exec .stB (mk [0xAB] .w1 []))).regs.b = 0xAB := by decide
theorem test_ldB : see (exec .ldB (mkAB 0 0xABCD [] .w2)) = some ⟨1, [0xCD, 0xAB], [], none⟩ := by decide
/-- V-MEM-1, V-MEM-2. -/
theorem test_setp : (after (exec .setp (mk [0x10] .w1 []))).mp = 0x10 := by decide
theorem test_setp_out : see (exec .setp (mk [0x00, 0x01] .w2 [])) = some ⟨0, [], [], some (.memoryFault 0x100)⟩ := by decide
/-- V-MEM-10. -/
theorem test_pushp : see (exec .pushp (mkM 0x10 [] [] .w8)) = some ⟨1, [0x10, 0, 0, 0, 0, 0, 0, 0], [], none⟩ := by decide
/-- V-MEM-8, V-MEM-3. -/
theorem test_mrb : see (exec .mrb (mkM 4 [(4, 0x34), (5, 0x12)] [] .w2)) = some ⟨1, [0x34, 0x12], [], none⟩ := by decide
theorem test_mrb_out : see (exec .mrb (mkM 255 [] [] .w2)) = some ⟨0, [], [], some (.memoryFault 0x100)⟩ := by decide
/-- V-MEM-11, and V-MEM-4 in a memory of 4 bytes. -/
theorem test_mrs : see (exec .mrs (mkM 0 [(0, 0x48), (1, 0x69)] [] .w1)) = some ⟨1, [0x48, 0x69], [], none⟩ := by decide
theorem test_mrs_unterminated : see (exec .mrs { tiny [] .w1 [] with mem := [(1, 1), (2, 1), (3, 1)] }) = some ⟨0, [], [], some (.memoryFault 4)⟩ := by decide
/-- V-MEM-9, V-MEM-5. -/
theorem test_mwb : (after (exec .mwb (mkM 4 [] [0x34, 0x12] .w2))).mem = [(4, 0x12), (5, 0x34)] := by decide
theorem test_mwb_out : see (exec .mwb (mkM 255 [] [2, 1] .w2)) = some ⟨0, [2, 1], [], some (.memoryFault 0x100)⟩ := by decide
/-- V-AR-1, V-AR-7. -/
theorem test_add_wraps : see (exec .add (mkAB 250 10 [] .w1)) = some ⟨1, [0x04], [], none⟩ := by decide
theorem test_add_high_bits : see (exec .add (mkAB 0x1FF 0x101 [] .w1)) = some ⟨1, [0x00], [], none⟩ := by decide
/-- V-AR-4, V-AR-6. -/
theorem test_sub_borrows : see (exec .sub (mkAB 3 5 [] .w1)) = some ⟨1, [0xFE], [], none⟩ := by decide
theorem test_sub_wide : see (exec .sub (mkAB 0 1 [] .w8)) = some ⟨1, [0xFF, 0xFF, 0xFF, 0xFF, 0xFF, 0xFF, 0xFF, 0xFF], [], none⟩ := by decide
/-- V-CF-1, V-CF-5. -/
theorem test_jng_equal : see (exec .jng (mkAB 5 5 [0x07] .w1)) = some ⟨7, [], [], none⟩ := by decide
theorem test_jng_whole_registers : see (exec .jng (mkAB 0x100 0xFF [0x09] .w1)) = some ⟨1, [], [], none⟩ := by decide
/-- V-CF-3, V-CF-4. -/
theorem test_jne_equal : see (exec .jne (mkAB 5 5 [0x07] .w1)) = some ⟨1, [], [], none⟩ := by decide
theorem test_jne_other : see (exec .jne (mkAB 5 6 [0x00] .w1)) = some ⟨0, [], [], none⟩ := by decide
/-- R189's example, V-CF-7. -/
theorem test_jmp : see (exec .jmp (mk [0x05, 0x00] .w2 [])) = some ⟨5, [], [], none⟩ := by decide
theorem test_jmp_far : see (exec .jmp (mk [0, 0, 0, 0x80, 0, 0, 0, 0] .w8 [])) = some ⟨0, [], [], some (.targetOutOfRange 0x80000000)⟩ := by decide
/-- V-CF-8, V-CF-14. -/
theorem test_call : see (exec .call { mk [0x05] .w1 [] with pc := 2 }) = some ⟨5, [], [0x02], none⟩ := by decide
theorem test_call_high_pc : see (exec .call { mk [0x03] .w1 [] with pc := 0x105 }) = some ⟨3, [], [0x05], none⟩ := by decide
/-- V-CF-9, V-CF-10. -/
theorem test_ret : see (exec .ret { mk [] .w1 [] with cs := [0x02] }) = some ⟨3, [], [], none⟩ := by decide
theorem test_ret_wide : see (exec .ret { mk [] .w2 [] with cs := [0x05, 0x02] }) = some ⟨518, [], [], none⟩ := by decide
/-- V-CF-13. -/
theorem test_halt : (after (step (mk [] .w1 [0x0E, 0x04]))).status = .halted := by decide
/-- V-CL-1, and R200's example. -/
theorem test_conv_zero : see (exec .conv (mk [0] .w1 [])) = some ⟨1, [0x30], [], none⟩ := by decide
theorem test_conv : see (exec .conv (mk [0xFF, 0x00] .w1 [])) = some ⟨1, [0x32, 0x35, 0x35, 0x00], [], none⟩ := by decide
/-- V-CL-6, V-CL-5. -/
theorem test_log : (after (exec .log (mk [0x48, 0x00, 0x07] .w1 []))).out = [0x48] := by decide
theorem test_log_short : (after (exec .log (mk [0x42, 0x41] .w1 []))).out = [0x42, 0x41] ∧ (after (exec .log (mk [0x42, 0x41] .w1 []))).fault.map FaultRecord.cause = some (.stackUnderflow .data) := by decide
/-- The word the host places is the first instruction after reset. -/
theorem test_withFetchWord : see (step (State.reset.withFetchWord 8 0x06)) = some ⟨1, [0x02], [], none⟩ := by decide
/-- E1. -/
theorem test_loadFile : loadFile [0x0A, 0x4D, 0x56, 0x4D, 0x0E] = some [0x0E] ∧ loadFile [0x0A, 0x4D, 0x56, 0x4E, 0x0E] = none := by decide
/-- R39, R211: the encodings of the control state. -/
theorem test_codes : Width.w8.code = 3 ∧ Mode.escape.code = 1 ∧ RunState.faulted.code = 2 ∧ (Cause.targetOutOfRange 0).code = 6 := by decide

/-! ## Witnesses: for each statement with hypotheses, values that meet those of each clause, at a boundary -/

theorem test_reset_Inv : State.reset.Inv :=
  ⟨rfl, by show RunState.running ≠ .faulted; decide, fun _ => by unfold State.bounded; decide⟩

/-- A state that meets the invariant, whose step faults, and one whose step goes on. -/
theorem test_witness_EveryStepKeepsRunBounds :
    State.reset.Inv ∧ (∃ t, step State.reset = .next t) ∧ (mk [] .w1 [0x02]).Inv ∧ ∃ t, step (mk [] .w1 [0x02]) = .next t :=
  ⟨test_reset_Inv, ⟨_, rfl⟩, ⟨rfl, by show RunState.running ≠ .faulted; decide, fun _ => by unfold State.bounded; decide⟩, ⟨_, rfl⟩⟩

/-- NOP05 is outside every list of writers; LD A is outside the first. -/
theorem test_witness_ElementsChangeOnlyByTheirWriters :
    (∃ t, exec .nop05 State.reset = .next t ∧ t.status ≠ .faulted) ∧ (∀ r, Instr.nop05 ≠ storeInstr r) ∧
    Instr.nop05 ≠ .w1 ∧ Instr.nop05 ≠ .esc ∧ Instr.nop05 ≠ .setp ∧ Instr.nop05 ≠ .call ∧ Instr.nop05 ≠ .mwb ∧ Instr.nop05 ≠ .halt :=
  ⟨⟨_, rfl, by decide⟩, fun r => by cases r <;> decide, by decide, by decide, by decide, by decide, by decide, by decide⟩

theorem test_witness_ElementsMatterOnlyToTheirReaders :
    (∀ r, Instr.conv ≠ storeInstr r ∧ Instr.conv ≠ loadInstr r) ∧ Instr.conv ∉ [Instr.add, .sub, .jng, .jne] ∧
    Instr.log ∈ [Instr.esc, .pop, .nop05, .nop0A, .nop0B, .nop11, .nop13, .nop1F, .halt, .mrs, .log, .escExit, .escZero] ∧
    Instr.setp ∉ [Instr.mrb, .mrs, .mwb] ∧ Instr.jmp ∉ [Instr.call, .ret] ∧
    Instr.add ∉ [Instr.setp, .pushp, .mrb, .mrs, .mwb] ∧ Instr.escZero ∉ [Instr.esc, .escExit] :=
  ⟨fun r => by cases r <;> decide, by decide, by decide, by decide, by decide, by decide, by decide⟩

theorem test_witness_WritersIgnoreTheOldValueAndReadersTheOtherRegisters :
    (let s : State := mkAB 3 5 [7] .w1
     let x : RegFile := { s.regs with h := 9 }
     x ≠ s.regs ∧ x.get .b = s.regs.get .b ∧ x.a = s.regs.a ∧ x.b = s.regs.b) ∧
    Instr.jng ∈ [Instr.add, .sub, .jng, .jne] ∧ Instr.w8 ∈ [Instr.w1, .w2, .w4, .w8] ∧
    Instr.escExit ∈ [Instr.esc, .escExit] ∧
    (let s : State := mkM 254 [(0, 5), (254, 9)] [1, 2] .w2
     let m : Memory := [(255, 3)]
     s.mem.wf = true ∧ m.wf = true ∧ ∃ t, exec .mwb s = .next t ∧ t.status ≠ .faulted) :=
  ⟨by decide, by decide, by decide, by decide, by decide, by decide, _, rfl, by decide⟩

theorem test_witness_OutputOnlyGrowsAndOnlyByLog :
    (∃ t, exec .log (mk [0x41, 0x00] .w1 []) = .next t ∧ t.out = [0x41]) ∧ (∃ t, exec .pop State.reset = .next t) ∧ Instr.pop ≠ .log :=
  ⟨⟨_, rfl, rfl⟩, ⟨_, rfl⟩, by decide⟩

theorem test_witness_ProgramIsNeverWritten :
    (∃ t, exec .mwb (mkM 0 [] [1] .w1) = .next t) ∧ ∃ t, step (mk [] .w1 [0x01, 0x07]) = .next t :=
  ⟨⟨_, rfl⟩, ⟨_, rfl⟩⟩

/-- The largest value at Width 1, and a stack with room for exactly it. -/
theorem test_witness_PopWidthReturnsWhatPushWidthPushed :
    (0xFF : Word).toNat < 2 ^ (8 * (tiny [0] .w1 []).width.bytes) ∧
    (tiny [0] .w1 []).ds.length + (tiny [0] .w1 []).width.bytes ≤ (tiny [0] .w1 []).cfg.dstackCap := by decide

/-- The three clauses, at the widths 2 to 1, 1 to 2 with one byte beneath, and 1 to 2 with none. -/
theorem test_witness_PopAtAnotherWidthSplitsOrJoinsBytes :
    (mk [] .w2 []).ds.length + 2 ≤ (mk [] .w2 []).cfg.dstackCap ∧ Width.w1.bytes < (mk [] .w2 []).width.bytes ∧
    (mk [7] .w1 []).width.bytes < Width.w2.bytes ∧ Width.w2.bytes ≤ (mk [7] .w1 []).width.bytes + (mk [7] .w1 []).ds.length ∧
    (mk [] .w1 []).width.bytes + (mk [] .w1 []).ds.length < Width.w2.bytes := by decide

theorem test_witness_DecodeReadsBackEveryEncoding :
    (Instr.pushl [0, 1, 2, 3, 4, 5, 6, 7]).wfIn .normal .w8 = true ∧ (Instr.escLit 0xFE).wfIn .escape .w1 = true ∧
    (Instr.invalid 0x30).wfIn .normal .w1 = true := by decide

theorem test_witness_StepRunsTheDecodedInstruction :
    (mk [] .w2 [0x01, 1, 2]).status = .running ∧
    decode .normal .w2 ((mk [] .w2 [0x01, 1, 2]).prog.drop 0) = .ok (.pushl [1, 2]) [] := by decide

/-- `pc` at the end and past it. -/
theorem test_witness_StepHaltsAtProgramEnd :
    (mk [] .w1 []).status = .running ∧ (mk [] .w1 []).prog.length ≤ (mk [] .w1 []).pc ∧
    ({ mk [] .w1 [0x05] with pc := 9 } : State).prog.length ≤ 9 := by decide

theorem test_witness_NoStepAfterTheRunEnds :
    ({ State.reset with status := .halted } : State).status = .halted ∧
    ({ State.reset with status := .faulted } : State).status = .faulted := by decide

theorem test_witness_EveryRunningStepAdvancesHaltsOrFaults : State.reset.status = .running := by decide

theorem test_witness_FaultRecordsItsStepAndEndsTheRun :
    ∃ t, step (mk [] .w1 [0x04]) = .next t ∧ t.status = .faulted := ⟨_, rfl, rfl⟩

/-- A stack with one place left, and a full one. -/
theorem test_witness_EscapePayloadPushesOneByte :
    (0xFE : Byte) ≠ 0x00 ∧ (0xFE : Byte) ≠ 0xFF ∧ (tiny [1] .w1 []).ds.length < (tiny [1] .w1 []).cfg.dstackCap ∧
    (tiny [1, 2] .w1 []).cfg.dstackCap ≤ (tiny [1, 2] .w1 []).ds.length := by decide

theorem test_witness_EscapeModeStepNeverRunsAnOpcode :
    let s : State := { tiny [1] .w1 [0xFF, 0x00] with mode := .escape }
    s.status = .running ∧ s.mode = .escape ∧ s.prog[s.pc]? = some 0xFF ∧ (0xFF : Byte) ≠ 0x00 ∧
    s.ds.length < s.cfg.dstackCap ∧ ({ s with pc := 1 } : State).prog[1]? = some 0x00 := by decide

theorem test_witness_NoOperationsOnlyAdvance : Instr.nop1F ∈ [Instr.nop05, .nop0A, .nop0B, .nop11, .nop13, .nop1F] := by decide
theorem test_witness_SetWidthChangesOnlyWidth : (Instr.w8, 8) ∈ [(Instr.w1, 1), (.w2, 2), (.w4, 4), (.w8, 8)] := by decide

theorem test_witness_InvalidOpcodesFault :
    (mk [] .w1 [0xFF]).status = .running ∧ (mk [] .w1 [0xFF]).mode = .normal ∧ (mk [] .w1 [0xFF]).prog[0]? = some 0xFF ∧
    0x30 ≤ (0xFF : Byte).toNat ∧ (mk [] .w1 [0x04]).prog[0]? = some 0x04 := by decide

/-- The exact fit, one byte of room too few, and one literal byte too few, on which the decoder's short literal
is what a step performs. -/
theorem test_witness_PushLiteralPushesItsBytes :
    ([1, 2] : List Byte).length = (tiny [] .w2 [1, 1, 2]).width.bytes ∧ 0 + 2 < (tiny [] .w2 [1, 1, 2]).prog.length ∧
    (tiny [] .w2 [1, 1, 2]).ds.length + 2 ≤ (tiny [] .w2 [1, 1, 2]).cfg.dstackCap ∧
    (tiny [9] .w2 [1, 1, 2]).cfg.dstackCap < (tiny [9] .w2 [1, 1, 2]).ds.length + 2 ∧
    let s : State := tiny [] .w2 [1, 7]
    s.status = .running ∧ s.mode = .normal ∧ s.prog[s.pc]? = some 0x01 ∧
    s.prog.length ≤ s.pc + s.width.bytes ∧
    decode s.mode s.width s.prog = .ok (.pushl [7]) [] := by decide

theorem test_witness_PushLiteralReadsTheStream :
    let s : State := { tiny [] .w2 [0x05, 0x01, 0x12, 0x34, 0x0E] with pc := 1 }
    s.status = .running ∧ s.mode = .normal ∧ s.prog = [0x05] ++ 0x01 :: ([0x12, 0x34] ++ [0x0E]) ∧
    ([0x05] : List Byte).length = s.pc ∧ ([0x12, 0x34] : List Byte).length = s.width.bytes ∧
    s.ds.length + s.width.bytes ≤ s.cfg.dstackCap := by decide

theorem test_witness_LiteralReadsBackBigEndian :
    ∃ t, ([0x12, 0x34] : List Byte).length = (mk [] .w2 [0x01, 0x12, 0x34]).width.bytes ∧
      exec (.pushl [0x12, 0x34]) (mk [] .w2 [0x01, 0x12, 0x34]) = .next t ∧ t.status ≠ .faulted :=
  ⟨_, rfl, rfl, by decide⟩

theorem test_witness_PopDiscardsOneByte :
    (mk [7] .w8 []).ds = 7 :: [] ∧ (mk [] .w8 []).ds = [] := by decide

/-- Exactly `W` bytes, and one byte fewer. -/
theorem test_witness_StoreRegisterPopsAWideValue :
    (mk [1, 2] .w2 []).width.bytes ≤ (mk [1, 2] .w2 []).ds.length ∧ (mk [1] .w2 []).ds.length < (mk [1] .w2 []).width.bytes := by decide

/-- Room for exactly `W` bytes, and for one byte fewer: also for push-pointer, add and subtract. -/
theorem test_witness_LoadRegisterPushesLowBytes :
    (tiny [] .w2 []).ds.length + (tiny [] .w2 []).width.bytes ≤ (tiny [] .w2 []).cfg.dstackCap ∧
    (tiny [1] .w2 []).cfg.dstackCap < (tiny [1] .w2 []).ds.length + (tiny [1] .w2 []).width.bytes := by decide
theorem test_witness_PushPointerPushesLowBytes :
    (tiny [1] .w1 []).ds.length + (tiny [1] .w1 []).width.bytes ≤ (tiny [1] .w1 []).cfg.dstackCap ∧
    (tiny [1, 2] .w1 []).cfg.dstackCap < (tiny [1, 2] .w1 []).ds.length + (tiny [1, 2] .w1 []).width.bytes := by decide
theorem test_witness_AddPushesTheSumModuloWidth :
    (tiny [] .w2 []).ds.length + (tiny [] .w2 []).width.bytes ≤ (tiny [] .w2 []).cfg.dstackCap ∧
    (tiny [] .w4 []).cfg.dstackCap < (tiny [] .w4 []).ds.length + (tiny [] .w4 []).width.bytes := by decide
theorem test_witness_SubPushesTheDifferenceModuloWidth :
    (tiny [1] .w1 []).ds.length + (tiny [1] .w1 []).width.bytes ≤ (tiny [1] .w1 []).cfg.dstackCap ∧
    (tiny [] .w8 []).cfg.dstackCap < (tiny [] .w8 []).ds.length + (tiny [] .w8 []).width.bytes := by decide

/-- The addresses 255 and 256 of a memory of 256 bytes, and one byte too few. -/
theorem test_witness_SetPointerChecksItsAddress :
    littleEndian ((mk [0xFF, 0x00] .w2 []).ds.take 2) < (mk [0xFF, 0x00] .w2 []).cfg.memSize ∧
    (mk [0x00, 0x01] .w2 []).cfg.memSize ≤ littleEndian ((mk [0x00, 0x01] .w2 []).ds.take 2) ∧
    (mk [0x00] .w2 []).ds.length < (mk [0x00] .w2 []).width.bytes := by decide

/-- The last block inside memory, the first one that is not, and a full stack. -/
theorem test_witness_ReadBlockPushesLowestAddressOnTop :
    (mkM 254 [] [] .w2).mp.toNat + 2 ≤ (mkM 254 [] [] .w2).cfg.memSize ∧
    (mkM 254 [] [] .w2).ds.length + 2 ≤ (mkM 254 [] [] .w2).cfg.dstackCap ∧
    (mkM 255 [] [] .w2).cfg.memSize < (mkM 255 [] [] .w2).mp.toNat + 2 ∧
    (tiny [1] .w2 []).mp.toNat + 2 ≤ (tiny [1] .w2 []).cfg.memSize ∧
    (tiny [1] .w2 []).cfg.dstackCap < (tiny [1] .w2 []).ds.length + 2 := by decide

/-- A string that ends at the last byte of memory, one that overflows, and one that does not end. -/
theorem test_witness_ReadStringPushesUpToTerminator :
    (let s : State := { tiny [] .w1 [] with mem := [(1, 7), (2, 7)] }
     s.mp.toNat + 2 < s.cfg.memSize ∧ s.mem.read (s.mp.toNat + 2) = 0x00 ∧ (∀ i < 2, s.mem.read (s.mp.toNat + i) ≠ 0x00) ∧
     s.ds.length + 2 ≤ s.cfg.dstackCap ∧ s.cfg.dstackCap < ({ s with ds := [1] } : State).ds.length + 2) ∧
    (let s : State := { tiny [] .w1 [] with mem := [(3, 7)], mp := 3 }
     ∀ a < 4, s.mp.toNat ≤ a → a < s.cfg.memSize → s.mem.read a ≠ 0x00) := by decide

/-- The last block inside memory with exactly `W` bytes, the first one that is not, and one byte too few. -/
theorem test_witness_WriteBlockStoresFirstPopHighest :
    (mkM 254 [] [1, 2] .w2).mem.wf = true ∧ (mkM 254 [] [1, 2] .w2).mp.toNat + 2 ≤ (mkM 254 [] [1, 2] .w2).cfg.memSize ∧
    2 ≤ (mkM 254 [] [1, 2] .w2).ds.length ∧ (mkM 255 [] [1, 2] .w2).cfg.memSize < (mkM 255 [] [1, 2] .w2).mp.toNat + 2 ∧
    (mkM 254 [] [1] .w2).ds.length < (mkM 254 [] [1] .w2).width.bytes := by decide
theorem test_witness_WriteThenReadReversesBytes :
    let s := mkM 254 [(3, 9)] [1, 2] .w2
    s.mem.wf = true ∧ s.mp.toNat + s.width.bytes ≤ s.cfg.memSize ∧ s.width.bytes ≤ s.ds.length ∧ s.ds.length ≤ s.cfg.dstackCap := by decide

theorem test_witness_ArithmeticIgnoresHighRegisterBytes :
    ∃ t, Instr.sub ∈ [Instr.add, .sub] ∧ 0x1FF % 2 ^ (8 * (mkAB 0x0FF 1 [] .w1).width.bytes) = 0x0FF % 2 ^ 8 ∧
      exec .sub (mkAB 0x0FF 1 [] .w1) = .next t ∧ t.status ≠ .faulted :=
  ⟨_, by decide, by decide, rfl, by decide⟩

/-- Each clause: falling through, taken to the last target, taken to the first that faults, too few bytes. -/
theorem test_witness_ConditionalJumpsCompareWholeRegisters :
    ((mkAB 2 1 [0] .w1).regs.b.toNat < (mkAB 2 1 [0] .w1).regs.a.toNat ∧ (mkAB 2 1 [0] .w1).width.bytes ≤ (mkAB 2 1 [0] .w1).ds.length) ∧
    ¬ (mkAB 1 1 [] .w4).regs.b.toNat < (mkAB 1 1 [] .w4).regs.a.toNat ∧
    littleEndian ((mkAB 1 1 [0xFF, 0xFF, 0xFF, 0x7F] .w4).ds.take 4) < 2 ^ 31 ∧
    2 ^ 31 ≤ littleEndian ((mkAB 1 1 [0, 0, 0, 0x80] .w4).ds.take 4) ∧
    (mkAB 1 2 [] .w1).regs.a.toNat ≠ (mkAB 1 2 [] .w1).regs.b.toNat ∧ (mkAB 1 2 [] .w1).ds.length < 1 := by decide
theorem test_witness_JumpGoesToThePoppedTarget :
    littleEndian ((mk [0xFF, 0xFF, 0xFF, 0x7F] .w4 []).ds.take 4) < 2 ^ 31 ∧
    2 ^ 31 ≤ littleEndian ((mk [0, 0, 0, 0x80] .w4 []).ds.take 4) ∧ (mk [0] .w2 []).ds.length < (mk [0] .w2 []).width.bytes := by decide

/-- A full call stack; one with a place left, with too few data bytes, a far target, a near one. -/
theorem test_witness_CallPushesOneByteOfItsPc :
    (let s : State := { tiny [] .w1 [] with cs := [1, 2] }
     s.cfg.cstackCap ≤ s.cs.length) ∧
    (let s : State := { tiny [] .w1 [] with cs := [1] }
     s.cs.length < s.cfg.cstackCap ∧ s.ds.length < s.width.bytes) ∧
    2 ^ 31 ≤ littleEndian ((mk [0, 0, 0, 0x80] .w4 []).ds.take 4) ∧ (mk [0, 0, 0, 0x80] .w4 []).cs.length < 65536 ∧
    littleEndian ((mk [0xFF, 0xFF, 0xFF, 0x7F] .w4 []).ds.take 4) < 2 ^ 31 := by decide

/-- The value 2^31 − 2, the last that returns, and 2^31 − 1, the first that faults; too few bytes. -/
theorem test_witness_ReturnGoesPastThePoppedValue :
    littleEndian ([0xFE, 0xFF, 0xFF, 0x7F] : List Byte) + 1 < 2 ^ 31 ∧
    2 ^ 31 ≤ littleEndian ([0xFF, 0xFF, 0xFF, 0x7F] : List Byte) + 1 ∧
    ({ mk [] .w4 [] with cs := [1, 2, 3, 4] } : State).width.bytes ≤ 4 ∧
    ({ mk [] .w2 [] with cs := [1] } : State).cs.length < (mk [] .w2 []).width.bytes := by decide

theorem test_witness_ReturnAtWidthOneResumesAfterTheCall :
    ∃ t, exec .call { mk [0x05] .w1 [] with pc := 255 } = .next t ∧ t.status ≠ .faulted ∧ t.width = .w1 ∧ 255 < 256 :=
  ⟨_, rfl, by decide, rfl, by decide⟩

/-- "0", and the largest value, which has 20 digits. -/
theorem test_witness_DecimalTextIsUnique : IsDecimal [0x30] 0 ∧ 2 ^ 64 - 1 < 2 ^ 64 ∧ (dec (2 ^ 64 - 1)).length = 20 :=
  ⟨⟨by decide, by unfold allDigits; decide, by decide, by decide⟩, by decide, by decide⟩

/-- The byte 255 and its text, with room for exactly it and for one byte fewer; too few bytes. -/
theorem test_witness_ConvertPushesTheDecimalText :
    IsDecimal [0x32, 0x35, 0x35] (littleEndian ((mk [0xFF] .w1 []).ds.take 1)) ∧
    (mk [0xFF] .w1 []).ds.length - 1 + 3 ≤ (mk [0xFF] .w1 []).cfg.dstackCap ∧
    (tiny [0xFF] .w1 []).cfg.dstackCap < (tiny [0xFF] .w1 []).ds.length - 1 + 3 ∧ (mk [] .w1 []).ds.length < 1 :=
  ⟨⟨by decide, by unfold allDigits; decide, by decide, by decide⟩, by decide, by decide, by decide⟩

/-- A terminator on top, one beneath text, and none. -/
theorem test_witness_LogEmitsUpToTheTerminator :
    (mk [0x00] .w1 []).ds = [] ++ 0x00 :: [] ∧ (mk [0x48, 0x00, 0x07] .w1 []).ds = [0x48] ++ 0x00 :: [0x07] ∧
    (∀ b ∈ ([0x48] : List Byte), b ≠ 0x00) ∧ ∀ b ∈ (mk [0x42, 0x41] .w1 []).ds, b ≠ 0x00 := by decide

theorem test_witness_StackFaultsComeFromTheListedInstructions :
    (Instr.pushl [1]).wf = true ∧ Instr.call.wf = true ∧ CanRaise .pop (· = .stackUnderflow .data) :=
  ⟨rfl, rfl, State.reset, _, _, rfl, rfl, rfl, rfl, rfl⟩

theorem test_witness_OtherFaultsComeFromTheListedInstructions :
    Instr.setp.wf = true ∧ CanRaise (.invalid 0x04) (fun c => ∃ b, c = .invalidOpcode b) :=
  ⟨rfl, State.reset, _, _, rfl, rfl, rfl, rfl, ⟨_, rfl⟩⟩

theorem test_witness_HostStartsExactlyHeaderedFiles :
    startFile Params.reference [0x0A, 0x4D, 0x56, 0x4D] = some (State.start Params.reference []) := by decide

end Sys2Proof.Tests
end

section
/-! The scope's parameters (00_scope.md R9, decision D3): what a start state and the reset state hold of them. -/

namespace Sys2Proof.Machine

@[simp] theorem State.start_prog (cfg : Params) (prog : List Byte) : (State.start cfg prog).prog = prog := rfl

@[simp] theorem State.start_cfg (cfg : Params) (prog : List Byte) : (State.start cfg prog).cfg = cfg := rfl

/-- Settles O2: `State.reset` is that start state by definition, the five values are those of R9's table, and a
start state holds what it is given by its two field lemmas. -/
theorem resetIsTheReferenceStart : Obligations.ResetIsTheReferenceStart := by
  refine ⟨?reset, ?memSize, ?dstackCap, ?cstackCap, ?regReset, ?mpReset, ?start⟩
  case start => exact fun cfg prog => ⟨State.start_prog cfg prog, State.start_cfg cfg prog⟩
  all_goals rfl

end Sys2Proof.Machine
end

section
/-! What one instruction can do to the state, said once: the elementary changes it is made of (10_state.md R24 to
R38). What instructions leave unchanged, and the invariant of runs, are read off these. -/

namespace Sys2Proof.Machine

/-- One elementary change that instruction `i` may make. Every instruction may move the PC and use the data stack;
each other element has its writers. A change keeps the guard under which the model makes it. -/
inductive Change : Instr → State → State → Prop
  | pc (i : Instr) (s : State) (n : Nat) : Change i s { s with pc := n }
  | push {i : Instr} {k : StackId} (s : State) (b : Byte) (hk : k = .data ∨ i = .call)
      (room : (s.stack k).length < s.stackCap k) : Change i s (s.setStack k (b :: s.stack k))
  | pop {i : Instr} {k : StackId} {b : Byte} {rest : List Byte} (s : State) (hk : k = .data ∨ i = .ret)
      (top : s.stack k = b :: rest) : Change i s (s.setStack k rest)
  | reg (s : State) (r : Reg) (v : Word) : Change (storeInstr r) s (writeReg r v s)
  | width {i : Instr} (s : State) (w : Width) (hi : i ∈ [Instr.w1, .w2, .w4, .w8]) :
      Change i s { s with width := w }
  | mode {i : Instr} (s : State) (m : Mode) (hi : i ∈ [Instr.esc, .escExit]) : Change i s { s with mode := m }
  | mp (s : State) (a : Word) (inside : a.toNat < s.cfg.memSize) : Change .setp s { s with mp := a }
  | mem (s : State) (a : Nat) (b : Byte) (inside : a < s.cfg.memSize) :
      Change .mwb s { s with mem := s.mem.write a b }
  | out (s : State) (b : Byte) : Change .log s (emit b s)
  | halt (s : State) : Change .halt s { s with status := .halted }

/-- Some changes of `i`, one after the other. -/
abbrev Reaches (i : Instr) : State → State → Prop :=
  Relation.ReflTransGen (Change i)

/-- The state in which primitives end, with a value or with a fault raised, meets `P`. -/
def Res.Ends {α : Type} (P : State → Prop) : Res α → Prop
  | .ok _ s => P s
  | .raised _ s => P s

section
variable {α β : Type} {P : State → Prop} {i : Instr} {s₀ s : State} {k : StackId}

theorem ends_bind {r : Res α} {q : α → State → Res β} (hr : r.Ends P)
    (hq : ∀ x s, P s → (q x s).Ends P) : (r.bind q).Ends P := by
  cases r with
  | ok x s => exact hq x s hr
  | raised c s => exact hr

/-! ## The primitives -/

theorem advance_reaches (n : Nat) (h : Reaches i s₀ s) : Reaches i s₀ (advance n s) :=
  h.tail (.pc i s _)

theorem ends_bind_advance {r : Res α} (n : Nat) (hr : r.Ends (Reaches i s₀)) :
    (r.bind fun _ s => .ok () (advance n s)).Ends (Reaches i s₀) :=
  ends_bind hr fun _ _ => advance_reaches n

theorem goto_ends (t : Nat) (h : Reaches i s₀ s) : (goto t s).Ends (Reaches i s₀) := by
  rcases goto_cases t s with hg | hg <;> rw [hg]
  · exact h.tail (.pc i s t)
  · exact h

theorem push_ends (b : Byte) (hk : k = .data ∨ i = .call) (h : Reaches i s₀ s) :
    (push k b s).Ends (Reaches i s₀) := by
  rcases push_cases k b s with ⟨hp, room⟩ | hp <;> rw [hp]
  · exact h.tail (.push s b hk room)
  · exact h

theorem pop_ends (hk : k = .data ∨ i = .ret) (h : Reaches i s₀ s) : (pop k s).Ends (Reaches i s₀) := by
  rcases pop_cases k s with ⟨b, rest, top, hp⟩ | hp <;> rw [hp]
  · exact h.tail (.pop s hk top)
  · exact h

theorem pushAll_ends (bs : List Byte) (h : Reaches i s₀ s) : (pushAll .data bs s).Ends (Reaches i s₀) := by
  induction bs generalizing s with
  | nil => exact h
  | cons b rest ih => exact ends_bind (push_ends b (.inl rfl) h) fun _ _ h => ih h

theorem popBytes_ends (n : Nat) (hk : k = .data ∨ i = .ret) (h : Reaches i s₀ s) :
    (popBytes k n s).Ends (Reaches i s₀) := by
  induction n generalizing s with
  | zero => exact h
  | succ n ih => exact ends_bind (pop_ends hk h) fun _ _ h => ends_bind (ih h) fun _ _ h => h

theorem pushW_ends (v : Word) (h : Reaches i s₀ s) : (pushW v s).Ends (Reaches i s₀) :=
  pushAll_ends _ h

theorem popW_ends (hk : k = .data ∨ i = .ret) (h : Reaches i s₀ s) : (popW k s).Ends (Reaches i s₀) :=
  ends_bind (popBytes_ends _ hk h) fun _ _ h => h

theorem memRead_ends (a : Nat) (h : P s) : (memRead a s).Ends P := by
  unfold memRead
  split <;> exact h

theorem memWrite_ends (a : Nat) (b : Byte) (h : Reaches .mwb s₀ s) :
    (memWrite a b s).Ends (Reaches .mwb s₀) := by
  unfold memWrite
  split
  · exact h
  · exact h.tail (.mem s a b (by omega))

theorem checkBlock_ends (n : Nat) (h : P s) : (checkBlock n s).Ends P := by
  rcases checkBlock_cases n s with ⟨hc, -⟩ | hc <;> rw [hc] <;> exact h

theorem pushBlock_ends (base n : Nat) (h : Reaches i s₀ s) : (pushBlock base n s).Ends (Reaches i s₀) := by
  induction n generalizing s with
  | zero => exact h
  | succ n ih =>
    exact ends_bind (memRead_ends _ h) fun b _ h => ends_bind (push_ends b (.inl rfl) h) fun _ _ h => ih h

theorem popBlock_ends (base n : Nat) (h : Reaches .mwb s₀ s) :
    (popBlock base n s).Ends (Reaches .mwb s₀) := by
  induction n generalizing s with
  | zero => exact h
  | succ n ih =>
    exact ends_bind (pop_ends (.inl rfl) h) fun b _ h => ends_bind (memWrite_ends _ b h) fun _ _ h => ih h

theorem scanString_ends (fuel q : Nat) (h : P s) : (scanString fuel q s).Ends P := by
  rcases scanString_frame (fuel := fuel) (q := q) (s := s) with ⟨bs, hs⟩ | ⟨a, hs⟩ <;> rw [hs] <;> exact h

theorem peek_ends (h : P s) : (peek k s).Ends P := by
  unfold peek
  split <;> exact h

theorem logLoop_ends (n : Nat) (h : Reaches .log s₀ s) : (logLoop n s).Ends (Reaches .log s₀) := by
  induction n generalizing s with
  | zero => exact h
  | succ n ih =>
    refine ends_bind (peek_ends h) fun c _ h => ends_bind (pop_ends (.inl rfl) h) fun _ s h => ?_
    split
    · exact h
    · exact ih (h.tail (.out s c))

theorem jumpIf_ends (taken : Bool) (h : Reaches i s₀ s) : (jumpIf taken s).Ends (Reaches i s₀) := by
  refine ends_bind (popW_ends (.inl rfl) h) fun t _ h => ?_
  split
  · exact goto_ends _ h
  · exact advance_reaches 1 h

end

/-! ## The instructions -/

/-- Instruction `i` from `s` is some changes of `i`, and then it goes on or takes a fault. -/
def MadeOfChanges (i : Instr) (s : State) : Prop :=
  ∃ r : Res Unit, exec i s = finish r ∧ r.Ends (Reaches i s)

theorem madeOfChanges_of_next {i : Instr} {s t : State} (h : exec i s = .next t) (hr : Reaches i s t) :
    MadeOfChanges i s :=
  ⟨.ok () t, h, hr⟩

theorem exec_storeInstr (r : Reg) (s : State) : exec (storeInstr r) s = storeReg r s := by
  cases r <;> rfl

theorem exec_loadInstr (r : Reg) (s : State) : exec (loadInstr r) s = loadReg r s := by
  cases r <;> rfl

theorem storeInstr_madeOfChanges (r : Reg) (s : State) : MadeOfChanges (storeInstr r) s :=
  ⟨_, exec_storeInstr r s,
    ends_bind (popW_ends (.inl rfl) .refl) fun v s h => advance_reaches 1 (h.tail (.reg s r v))⟩

theorem loadInstr_madeOfChanges (r : Reg) (s : State) : MadeOfChanges (loadInstr r) s :=
  ⟨_, exec_loadInstr r s, ends_bind_advance 1 (pushW_ends _ .refl)⟩

theorem exec_madeOfChanges (i : Instr) (s : State) : MadeOfChanges i s := by
  cases i with
  | esc => exact madeOfChanges_of_next rfl (advance_reaches 1 (.single (.mode s .escape (by simp))))
  | escExit => exact madeOfChanges_of_next rfl (advance_reaches 1 (.single (.mode s .normal (by simp))))
  | nop05 | nop0A | nop0B | nop11 | nop13 | nop1F => exact madeOfChanges_of_next rfl (advance_reaches 1 .refl)
  | w1 => exact madeOfChanges_of_next rfl (advance_reaches 1 (.single (.width s .w1 (by simp))))
  | w2 => exact madeOfChanges_of_next rfl (advance_reaches 1 (.single (.width s .w2 (by simp))))
  | w4 => exact madeOfChanges_of_next rfl (advance_reaches 1 (.single (.width s .w4 (by simp))))
  | w8 => exact madeOfChanges_of_next rfl (advance_reaches 1 (.single (.width s .w8 (by simp))))
  | halt => exact madeOfChanges_of_next rfl (.tail (.single (.halt s)) (.pc .halt _ s.prog.length))
  | invalid b => exact ⟨.raised (.invalidOpcode b) s, rfl, Relation.ReflTransGen.refl⟩
  | escZero | escLit => exact ⟨_, rfl, ends_bind_advance 1 (push_ends _ (.inl rfl) .refl)⟩
  | pop => exact ⟨_, rfl, ends_bind_advance 1 (pop_ends (.inl rfl) .refl)⟩
  | pushl lit =>
    refine ⟨_, rfl, ?_⟩
    split
    · exact .refl
    · exact ends_bind (pushAll_ends lit .refl) fun _ _ => advance_reaches _
  | conv =>
    exact ⟨_, rfl, ends_bind (popW_ends (.inl rfl) .refl) fun _ _ h => ends_bind_advance 1 (pushAll_ends _ h)⟩
  | add | sub | pushp => exact ⟨_, rfl, ends_bind_advance 1 (pushW_ends _ .refl)⟩
  | jng | jne => exact ⟨_, rfl, jumpIf_ends _ .refl⟩
  | jmp => exact ⟨_, rfl, ends_bind (popW_ends (.inl rfl) .refl) fun _ _ => goto_ends _⟩
  | call =>
    exact ⟨_, rfl, ends_bind (push_ends _ (.inr rfl) .refl) fun _ _ h =>
      ends_bind (popW_ends (.inl rfl) h) fun _ _ => goto_ends _⟩
  | ret => exact ⟨_, rfl, ends_bind (popW_ends (.inr rfl) .refl) fun _ _ => goto_ends _⟩
  | setp =>
    refine ⟨_, rfl, ends_bind (popW_ends (.inl rfl) .refl) fun a s h => ?_⟩
    split
    · exact h
    · exact advance_reaches 1 (h.tail (.mp s a (by omega)))
  | mrb =>
    exact ⟨_, rfl, ends_bind (checkBlock_ends _ .refl) fun _ _ h => ends_bind_advance 1 (pushBlock_ends _ _ h)⟩
  | mrs =>
    exact ⟨_, rfl, ends_bind (scanString_ends _ _ .refl) fun _ _ h => ends_bind_advance 1 (pushAll_ends _ h)⟩
  | mwb =>
    exact ⟨_, rfl, ends_bind (checkBlock_ends _ .refl) fun _ _ h => ends_bind_advance 1 (popBlock_ends _ _ h)⟩
  | log => exact ⟨_, rfl, ends_bind_advance 1 (logLoop_ends _ .refl)⟩
  | stA => exact storeInstr_madeOfChanges .a s
  | stB => exact storeInstr_madeOfChanges .b s
  | stC => exact storeInstr_madeOfChanges .c s
  | stD => exact storeInstr_madeOfChanges .d s
  | stE => exact storeInstr_madeOfChanges .e s
  | stF => exact storeInstr_madeOfChanges .f s
  | stG => exact storeInstr_madeOfChanges .g s
  | stH => exact storeInstr_madeOfChanges .h s
  | ldA => exact loadInstr_madeOfChanges .a s
  | ldB => exact loadInstr_madeOfChanges .b s
  | ldC => exact loadInstr_madeOfChanges .c s
  | ldD => exact loadInstr_madeOfChanges .d s
  | ldE => exact loadInstr_madeOfChanges .e s
  | ldF => exact loadInstr_madeOfChanges .f s
  | ldG => exact loadInstr_madeOfChanges .g s
  | ldH => exact loadInstr_madeOfChanges .h s

/-- What an instruction can do: it makes some of its changes, and then it goes on or takes a fault. -/
theorem exec_cases {i : Instr} {s t : State} (h : exec i s = .next t) :
    ∃ u, Reaches i s u ∧ (t = u ∨ ∃ c, t = takeFault c u) := by
  obtain ⟨r, hr, hends⟩ := exec_madeOfChanges i s
  rcases finish_eq_next.mp (hr ▸ h) with rfl | ⟨c, u, rfl, rfl⟩
  · exact ⟨t, hends, .inl rfl⟩
  · exact ⟨u, hends, .inr ⟨c, rfl⟩⟩

end Sys2Proof.Machine
end

section
/-! What an instruction leaves unchanged (10_state.md R24 to R38, R146). -/

namespace Sys2Proof.Machine

/-- What no change of `i` alters, `i` does not alter. -/
theorem reaches_keeps {α : Type} {i : Instr} {s t : State} (f : State → α)
    (hf : ∀ s t, Change i s t → f t = f s) (h : Reaches i s t) : f t = f s := by
  induction h with
  | refl => rfl
  | tail _ hc ih => rw [hf _ _ hc, ih]

section
variable {i : Instr} {s t : State}

theorem Change.fault_eq (h : Change i s t) : t.fault = s.fault := by
  cases h <;> simp

theorem Change.icount_eq (h : Change i s t) : t.icount = s.icount := by
  cases h <;> simp

theorem Change.get_eq {r : Reg} (hi : i ≠ storeInstr r) (h : Change i s t) :
    t.regs.get r = s.regs.get r := by
  cases h with
  | reg q v => exact get_set_other _ _ fun hq => hi (hq ▸ rfl)
  | _ => simp

theorem Change.width_eq (hi : i ∉ [Instr.w1, .w2, .w4, .w8]) (h : Change i s t) : t.width = s.width := by
  cases h with
  | width _ w hw => exact absurd hw hi
  | _ => simp

theorem Change.mode_eq (hi : i ∉ [Instr.esc, .escExit]) (h : Change i s t) : t.mode = s.mode := by
  cases h with
  | mode _ m hm => exact absurd hm hi
  | _ => simp

theorem Change.mp_eq (hi : i ≠ .setp) (h : Change i s t) : t.mp = s.mp := by
  cases h with
  | mp => exact absurd rfl hi
  | _ => simp

theorem Change.cs_eq (hc : i ≠ .call) (hr : i ≠ .ret) (h : Change i s t) : t.cs = s.cs := by
  cases h with
  | push _ b hk =>
    obtain rfl := hk.resolve_right hc
    rfl
  | pop _ hk =>
    obtain rfl := hk.resolve_right hr
    rfl
  | _ => simp

theorem Change.mem_eq (hi : i ≠ .mwb) (h : Change i s t) : t.mem = s.mem := by
  cases h with
  | mem => exact absurd rfl hi
  | _ => simp

theorem Change.out_eq (hi : i ≠ .log) (h : Change i s t) : t.out = s.out := by
  cases h with
  | out => exact absurd rfl hi
  | _ => simp

theorem Change.status_eq (hi : i ≠ .halt) (h : Change i s t) : t.status = s.status := by
  cases h with
  | halt => exact absurd rfl hi
  | _ => simp

/-- No change removes from the output. -/
theorem Change.out_appends (h : Change i s t) : ∃ bs, t.out = s.out ++ bs := by
  cases h with
  | out _ b => exact ⟨[b], rfl⟩
  | _ => exact ⟨[], by simp⟩

theorem reaches_out_appends (h : Reaches i s t) : ∃ bs, t.out = s.out ++ bs := by
  induction h with
  | refl => exact ⟨[], (List.append_nil _).symm⟩
  | tail _ hc ih =>
    obtain ⟨bs, hbs⟩ := ih
    obtain ⟨cs, hcs⟩ := hc.out_appends
    exact ⟨bs ++ cs, by rw [hcs, hbs, List.append_assoc]⟩

end

/-- Settles O5: an instruction that does not fault is some of its changes, and each element is kept by every change
but its writers'. -/
theorem elementsChangeOnlyByTheirWriters : Obligations.ElementsChangeOnlyByTheirWriters := by
  intro i s t h hnf
  obtain ⟨t, hr, rfl | ⟨c, rfl⟩⟩ := exec_cases h
  · exact ⟨
      fun r hi => reaches_keeps (fun s => s.regs.get r) (fun _ _ => Change.get_eq hi) hr,
      fun h1 h2 h4 h8 => reaches_keeps State.width (fun _ _ => Change.width_eq (by simp [*])) hr,
      fun he hx => reaches_keeps State.mode (fun _ _ => Change.mode_eq (by simp [*])) hr,
      fun hi => reaches_keeps State.mp (fun _ _ => Change.mp_eq hi) hr,
      fun hc hret => reaches_keeps State.cs (fun _ _ => Change.cs_eq hc hret) hr,
      fun hi a => congrArg (Memory.read · a) (reaches_keeps State.mem (fun _ _ => Change.mem_eq hi) hr),
      fun hi => reaches_keeps State.status (fun _ _ => Change.status_eq hi) hr,
      reaches_keeps State.fault (fun _ _ => Change.fault_eq) hr,
      reaches_keeps State.icount (fun _ _ => Change.icount_eq) hr⟩
  · exact absurd rfl hnf

/-- Settles O7: taking a fault keeps the output, and of the changes only debug-log's alters it, by appending. -/
theorem outputOnlyGrowsAndOnlyByLog : Obligations.OutputOnlyGrowsAndOnlyByLog := by
  refine ⟨rfl, fun i s t h => ?_⟩
  obtain ⟨u, hr, ht⟩ := exec_cases h
  have hout : t.out = u.out := by rcases ht with rfl | ⟨c, rfl⟩ <;> rfl
  obtain ⟨bs, hbs⟩ := reaches_out_appends hr
  refine ⟨bs, hout.trans hbs, fun hi => ?_⟩
  have hsame : u.out = s.out := reaches_keeps State.out (fun _ _ => Change.out_eq hi) hr
  exact List.append_right_eq_self.mp (hbs.symm.trans hsame)

end Sys2Proof.Machine
end

section
/-! The invariant of runs (10_state.md R43). -/

namespace Sys2Proof.Machine

/-- Settles O16: a turn of the loop finds the run over. -/
theorem noStepAfterTheRunEnds : Obligations.NoStepAfterTheRunEnds := by
  rintro s (h | h) <;> simp [step, fetchTurn, h]

/-- What a step can do: only in Running, it ends the run at the end of the program, or it counts one byte and
performs an instruction. -/
theorem step_cases {s t : State} (h : step s = .next t) :
    s.status = .running ∧
      (t = { s with status := .halted } ∨ ∃ i, exec i { s with icount := s.icount + 1 } = .next t) := by
  cases hs : s.status with
  | running =>
    refine ⟨rfl, ?_⟩
    cases hd : decode s.mode s.width (progFrom s s.pc) with
    | ok i rest => exact .inr ⟨i, by simpa [step, fetchTurn, hs, hd] using h⟩
    | rejected e => exact .inl (by simpa [step, fetchTurn, hs, hd, eq_comm] using h)
  | halted => simp [noStepAfterTheRunEnds s (.inl hs)] at h
  | faulted => simp [noStepAfterTheRunEnds s (.inr hs)] at h

theorem start_inv (cfg : Params) (prog : List Byte) : (State.start cfg prog).Inv where
  mem_wf := rfl
  record := by simp [State.recordFits, State.start]
  bounds _ := by simp [State.bounded, State.start]

/-- Settles O3: in a start state the stacks and memory are empty, MemoryPointer is at its reset value and there is
no fault record; `State.reset` is a start state. -/
theorem startStatesMeetRunBounds : Obligations.StartStatesMeetRunBounds :=
  ⟨start_inv, start_inv Params.reference []⟩

section
variable {i : Instr} {s t : State}

theorem Change.mem_wf (hs : s.mem.wf = true) (h : Change i s t) : t.mem.wf = true := by
  cases h with
  | mem _ a b => exact write_wf a b hs
  | _ => simpa using hs

/-- Every change keeps the bounds of R43: a push finds room, a pop shortens its stack, and a new MemoryPointer and
a written address are inside memory. -/
theorem Change.bounded (hs : s.bounded) (h : Change i s t) : t.bounded := by
  obtain ⟨hds, hcs, hmp, hmem⟩ := hs
  cases h with
  | @push _ k _ b _ room =>
    cases k with
    | data => exact ⟨room, hcs, hmp, hmem⟩
    | call => exact ⟨hds, room, hmp, hmem⟩
  | @pop _ k b rest _ _ top =>
    have shorter : rest.length ≤ (s.stack k).length := by simp [top]
    cases k with
    | data => exact ⟨shorter.trans hds, hcs, hmp, hmem⟩
    | call => exact ⟨hds, shorter.trans hcs, hmp, hmem⟩
  | mp _ a inside => exact ⟨hds, hcs, .inl inside, hmem⟩
  | mem _ a b inside => exact ⟨hds, hcs, hmp, write_below b inside hmem⟩
  | _ => exact ⟨hds, hcs, hmp, hmem⟩

/-- A change never makes the run Faulted: only taking a fault does. -/
theorem Change.status_ne_faulted (hs : s.status ≠ .faulted) (h : Change i s t) : t.status ≠ .faulted := by
  cases h with
  | halt => simp
  | _ => simpa using hs

/-- What every change keeps, a whole instruction keeps until it takes a fault. -/
theorem reaches_induct {P : State → Prop} (hP : ∀ s t, P s → Change i s t → P t) (hs : P s)
    (h : Reaches i s t) : P t := by
  induction h with
  | refl => exact hs
  | tail _ hc ih => exact hP _ _ ih hc

theorem takeFault_inv (c : Cause) (hm : s.mem.wf = true) (hn : 1 ≤ s.icount) : (takeFault c s).Inv where
  mem_wf := hm
  record := ⟨rfl, rfl, hn⟩
  bounds h := absurd rfl h

theorem inv_of_not_faulted (hm : s.mem.wf = true) (hf : s.fault = none) (hs : s.status ≠ .faulted)
    (hb : s.bounded) : s.Inv where
  mem_wf := hm
  record := by simpa [State.recordFits, hf] using hs
  bounds _ := hb

theorem State.Inv.fault_eq_none (h : s.Inv) (hs : s.status ≠ .faulted) : s.fault = none := by
  have hr := h.record
  cases hf : s.fault with
  | none => rfl
  | some r =>
    rw [State.recordFits, hf] at hr
    exact absurd hr.1 hs

/-- An instruction keeps the invariant, from a state in which a byte has been counted and no fault taken. -/
theorem exec_inv (hs : s.Inv) (hnf : s.status ≠ .faulted) (hn : 1 ≤ s.icount) (h : exec i s = .next t) :
    t.Inv := by
  obtain ⟨u, hr, ht⟩ := exec_cases h
  have hm : u.mem.wf = true := reaches_induct (P := fun s => s.mem.wf = true) (fun _ _ => Change.mem_wf) hs.mem_wf hr
  rcases ht with rfl | ⟨c, rfl⟩
  · refine inv_of_not_faulted hm ?_ (reaches_induct (fun _ _ => Change.status_ne_faulted) hnf hr)
      (reaches_induct (fun _ _ => Change.bounded) (hs.bounds hnf) hr)
    rw [reaches_keeps State.fault (fun _ _ => Change.fault_eq) hr, hs.fault_eq_none hnf]
  · refine takeFault_inv c hm ?_
    rwa [reaches_keeps State.icount (fun _ _ => Change.icount_eq) hr]

end

/-- Settles O4: a step from Running ends the run, with everything else as it was, or performs an instruction,
whose changes each keep the bounds, and whose fault records the count of this step. -/
theorem everyStepKeepsRunBounds : Obligations.EveryStepKeepsRunBounds := by
  intro s t hs h
  obtain ⟨hrun, ht⟩ := step_cases h
  have hnf : s.status ≠ .faulted := by simp [hrun]
  have hfault : s.fault = none := hs.fault_eq_none hnf
  rcases ht with rfl | ⟨i, hi⟩
  · exact inv_of_not_faulted hs.mem_wf hfault (by simp) (hs.bounds hnf)
  · have counted : ({ s with icount := s.icount + 1 } : State).Inv :=
      inv_of_not_faulted hs.mem_wf hfault hnf (hs.bounds hnf)
    exact exec_inv counted hnf (Nat.succ_pos s.icount) hi

end Sys2Proof.Machine
end

section
/-! Which elements an instruction does not see (10_state.md R24 to R36, R54): its run from a state with other values
in them is its run from the state itself, with the same other values. -/

namespace Sys2Proof.Machine

/-- Other values for some elements of the state. -/
structure Override where
  regs : Option RegFile := none
  width : Option Width := none
  mode : Option Mode := none
  mp : Option Word := none
  cs : Option (List Byte) := none
  mem : Option Memory := none
  icount : Option Nat := none

/-- The state with the other values. -/
def Override.apply (d : Override) (s : State) : State :=
  { s with
    regs := d.regs.getD s.regs
    width := d.width.getD s.width
    mode := d.mode.getD s.mode
    mp := d.mp.getD s.mp
    cs := d.cs.getD s.cs
    mem := d.mem.getD s.mem
    icount := d.icount.getD s.icount }

/-- The same result in a changed state. -/
def Res.mapState {α : Type} (f : State → State) : Res α → Res α
  | .ok x s => .ok x (f s)
  | .raised c s => .raised c (f s)

/-- If neither of two primitives sees a change of state, then neither does one after the other. -/
theorem bind_mapState {α β : Type} {f : State → State} {r r' : Res α} {k k' : α → State → Res β}
    (hr : r' = r.mapState f) (hk : ∀ x s, k' x (f s) = (k x s).mapState f) :
    r'.bind k' = (r.bind k).mapState f := by
  subst hr
  cases r with
  | ok x s => exact hk x s
  | raised c s => rfl

theorem ite_mapState {α : Type} {f : State → State} {p : Prop} [Decidable p] {r r' q q' : Res α}
    (hr : r' = r.mapState f) (hq : q' = q.mapState f) :
    (if p then r' else q') = (if p then r else q).mapState f := by
  split <;> assumption

section
variable {α : Type} {d : Override} {k : StackId}

/-! ## What an override leaves -/

theorem apply_width (h : d.width = none) (s : State) : (d.apply s).width = s.width := by
  simp [Override.apply, h]

theorem apply_mp (h : d.mp = none) (s : State) : (d.apply s).mp = s.mp := by
  simp [Override.apply, h]

theorem apply_mem (h : d.mem = none) (s : State) : (d.apply s).mem = s.mem := by
  simp [Override.apply, h]

theorem apply_icount (h : d.icount = none) (s : State) : (d.apply s).icount = s.icount := by
  simp [Override.apply, h]

/-- The override leaves the stack alone: the data stack always, the call stack if it holds no other one. -/
def Override.leaves (d : Override) : StackId → Prop
  | .data => True
  | .call => d.cs = none

theorem leaves_data : d.leaves .data := trivial

theorem apply_stack (h : d.leaves k) (s : State) : (d.apply s).stack k = s.stack k := by
  cases k with
  | data => rfl
  | call => exact congrArg (Option.getD · s.cs) h

theorem apply_setStack (h : d.leaves k) (s : State) (bs : List Byte) :
    (d.apply s).setStack k bs = d.apply (s.setStack k bs) := by
  cases k with
  | data => rfl
  | call => simp [Override.apply, State.setStack, show d.cs = none from h]

theorem apply_stackCap (s : State) (k : StackId) : (d.apply s).stackCap k = s.stackCap k := by
  cases k <;> rfl

theorem apply_setMem (h : d.mem = none) (s : State) (m : Memory) :
    { d.apply s with mem := m } = d.apply { s with mem := m } := by
  simp [Override.apply, h]

/-! ## The primitives -/

/-- To move on is not to see any element. -/
theorem bind_advance_apply {r r' : Res α} (n : Nat) (h : r' = r.mapState d.apply) :
    (r'.bind fun _ s => .ok () (advance n s)) = (r.bind fun _ s => .ok () (advance n s)).mapState d.apply :=
  bind_mapState h fun _ _ => rfl

theorem goto_apply (t : Nat) (s : State) : goto t (d.apply s) = (goto t s).mapState d.apply := by
  unfold goto
  exact ite_mapState rfl rfl

theorem push_apply (b : Byte) (h : d.leaves k) (s : State) :
    push k b (d.apply s) = (push k b s).mapState d.apply := by
  unfold push
  rw [apply_stack h, apply_stackCap, apply_setStack h]
  exact ite_mapState rfl rfl

theorem pop_apply (h : d.leaves k) (s : State) : pop k (d.apply s) = (pop k s).mapState d.apply := by
  rcases pop_cases k s with ⟨b, rest, hs, hp⟩ | hp
  · rw [hp, pop_cons ((apply_stack h s).trans hs), apply_setStack h]
    rfl
  · have hs : s.stack k = [] := by
      cases hs : s.stack k with
      | nil => rfl
      | cons b rest => simp [pop_cons hs] at hp
    rw [hp, pop_nil ((apply_stack h s).trans hs)]
    rfl

theorem pushAll_apply (bs : List Byte) (s : State) :
    pushAll .data bs (d.apply s) = (pushAll .data bs s).mapState d.apply := by
  induction bs generalizing s with
  | nil => rfl
  | cons b rest ih => exact bind_mapState (push_apply b leaves_data s) fun _ => ih

theorem popBytes_apply (h : d.leaves k) (n : Nat) (s : State) :
    popBytes k n (d.apply s) = (popBytes k n s).mapState d.apply := by
  induction n generalizing s with
  | zero => rfl
  | succ n ih => exact bind_mapState (pop_apply h s) fun _ s => bind_mapState (ih s) fun _ _ => rfl

theorem pushW_apply (h : d.width = none) (v : Word) (s : State) :
    pushW v (d.apply s) = (pushW v s).mapState d.apply := by
  rw [pushW, apply_width h, pushAll_apply, pushW]

theorem popW_apply (hw : d.width = none) (hk : d.leaves k) (s : State) :
    popW k (d.apply s) = (popW k s).mapState d.apply := by
  rw [popW, apply_width hw]
  exact bind_mapState (popBytes_apply hk _ s) fun _ _ => rfl

theorem jumpIf_apply (h : d.width = none) (taken : Bool) (s : State) :
    jumpIf taken (d.apply s) = (jumpIf taken s).mapState d.apply := by
  refine bind_mapState (popW_apply h leaves_data s) fun t s => ?_
  exact ite_mapState (goto_apply _ s) rfl

theorem checkBlock_apply (h : d.mp = none) (n : Nat) (s : State) :
    checkBlock n (d.apply s) = (checkBlock n s).mapState d.apply := by
  unfold checkBlock
  rw [apply_mp h]
  exact ite_mapState rfl rfl

theorem memRead_apply (h : d.mem = none) (a : Nat) (s : State) :
    memRead a (d.apply s) = (memRead a s).mapState d.apply := by
  unfold memRead
  rw [apply_mem h]
  exact ite_mapState rfl rfl

theorem memWrite_apply (h : d.mem = none) (a : Nat) (b : Byte) (s : State) :
    memWrite a b (d.apply s) = (memWrite a b s).mapState d.apply := by
  unfold memWrite
  rw [apply_mem h, apply_setMem h]
  exact ite_mapState rfl rfl

theorem pushBlock_apply (h : d.mem = none) (base n : Nat) (s : State) :
    pushBlock base n (d.apply s) = (pushBlock base n s).mapState d.apply := by
  induction n generalizing s with
  | zero => rfl
  | succ n ih =>
    exact bind_mapState (memRead_apply h _ s) fun b s => bind_mapState (push_apply b leaves_data s) fun _ => ih

theorem popBlock_apply (h : d.mem = none) (base n : Nat) (s : State) :
    popBlock base n (d.apply s) = (popBlock base n s).mapState d.apply := by
  induction n generalizing s with
  | zero => rfl
  | succ n ih =>
    exact bind_mapState (pop_apply leaves_data s) fun b s => bind_mapState (memWrite_apply h _ b s) fun _ => ih

theorem scanString_apply (h : d.mem = none) (fuel q : Nat) (s : State) :
    scanString fuel q (d.apply s) = (scanString fuel q s).mapState d.apply := by
  induction fuel generalizing q with
  | zero => rfl
  | succ n ih =>
    unfold scanString
    rw [apply_mem h]
    exact ite_mapState rfl (bind_mapState (ih (q + 1)) fun _ _ => rfl)

theorem peek_apply (h : d.leaves k) (s : State) : peek k (d.apply s) = (peek k s).mapState d.apply := by
  unfold peek
  rw [apply_stack h]
  split <;> rfl

theorem logLoop_apply (n : Nat) (s : State) : logLoop n (d.apply s) = (logLoop n s).mapState d.apply := by
  induction n generalizing s with
  | zero => rfl
  | succ n ih =>
    refine bind_mapState (peek_apply leaves_data s) fun c s => bind_mapState (pop_apply leaves_data s) fun _ s => ?_
    exact ite_mapState rfl (ih (emit c s))

end

/-! ## The instructions -/

/-- The override holds, in state `s`, no other value for what the instruction reads or writes. Of the registers,
load-register reads its own, and add, subtract and the conditional jumps read A and B. The count is not among the
elements listed: only taking a fault reads it (R33, R210). -/
def Override.UnseenBy (d : Override) (s : State) : Instr → Prop
  | .pop | .nop05 | .nop0A | .nop0B | .nop11 | .nop13 | .nop1F | .halt | .log | .escZero | .escLit _
  | .invalid _ => True
  | .esc | .escExit => d.mode = none
  | .w1 | .w2 | .w4 | .w8 | .pushl _ | .conv | .jmp => d.width = none
  | .add | .sub | .jng | .jne =>
    d.width = none ∧ (d.apply s).regs.a = s.regs.a ∧ (d.apply s).regs.b = s.regs.b
  | .call | .ret => d.width = none ∧ d.cs = none
  | .setp | .pushp => d.width = none ∧ d.mp = none
  | .mrb | .mwb => d.width = none ∧ d.mp = none ∧ d.mem = none
  | .mrs => d.mp = none ∧ d.mem = none
  | .stA | .stB | .stC | .stD | .stE | .stF | .stG | .stH => d.width = none ∧ d.regs = none
  | .ldA => d.width = none ∧ (d.apply s).regs.get .a = s.regs.get .a
  | .ldB => d.width = none ∧ (d.apply s).regs.get .b = s.regs.get .b
  | .ldC => d.width = none ∧ (d.apply s).regs.get .c = s.regs.get .c
  | .ldD => d.width = none ∧ (d.apply s).regs.get .d = s.regs.get .d
  | .ldE => d.width = none ∧ (d.apply s).regs.get .e = s.regs.get .e
  | .ldF => d.width = none ∧ (d.apply s).regs.get .f = s.regs.get .f
  | .ldG => d.width = none ∧ (d.apply s).regs.get .g = s.regs.get .g
  | .ldH => d.width = none ∧ (d.apply s).regs.get .h = s.regs.get .h

/-- Instruction `i` from `s` with the other values ends as it does from `s`, with the same other values. -/
def Override.Passes (d : Override) (i : Instr) (s : State) : Prop :=
  ∃ r : Res Unit, exec i s = finish r ∧ exec i (d.apply s) = finish (r.mapState d.apply)

section
variable {d : Override} {i : Instr} {s : State}

theorem passes_of_next {t : State} (h : exec i s = .next t) (hd : exec i (d.apply s) = .next (d.apply t)) :
    d.Passes i s :=
  ⟨.ok () t, h, hd⟩

theorem passes_of_finish {r r' : Res Unit} (h : exec i s = finish r) (hd : exec i (d.apply s) = finish r')
    (hr : r' = r.mapState d.apply) : d.Passes i s :=
  ⟨r, h, hr ▸ hd⟩

theorem storeInstr_passes (r : Reg) (hw : d.width = none) (hr : d.regs = none) :
    d.Passes (storeInstr r) s := by
  refine passes_of_finish (exec_storeInstr r s) (exec_storeInstr r _)
    (bind_mapState (popW_apply hw leaves_data s) fun v s => ?_)
  simp [Res.mapState, Override.apply, advance, writeReg, hr]

theorem loadInstr_passes (r : Reg) (hw : d.width = none) (hr : (d.apply s).regs.get r = s.regs.get r) :
    d.Passes (loadInstr r) s :=
  passes_of_finish (exec_loadInstr r s) (exec_loadInstr r _)
    (hr ▸ bind_advance_apply 1 (pushW_apply hw _ s))

theorem exec_passes (h : d.UnseenBy s i) : d.Passes i s := by
  cases i with
  | nop05 | nop0A | nop0B | nop11 | nop13 | nop1F | halt => exact passes_of_next rfl rfl
  | invalid b => exact ⟨.raised (.invalidOpcode b) s, rfl, rfl⟩
  | esc | escExit =>
    refine passes_of_next rfl ?_
    simp [exec, execEsc, execEscExit, advance, Override.apply, show d.mode = none from h]
  | w1 | w2 | w4 | w8 =>
    refine passes_of_next rfl ?_
    simp [exec, execW1, execW2, execW4, execW8, advance, Override.apply, show d.width = none from h]
  | escZero | escLit => exact passes_of_finish rfl rfl (bind_advance_apply 1 (push_apply _ leaves_data s))
  | pop => exact passes_of_finish rfl rfl (bind_advance_apply 1 (pop_apply leaves_data s))
  | log => exact passes_of_finish rfl rfl (bind_advance_apply 1 (logLoop_apply _ s))
  | pushl lit =>
    refine passes_of_finish rfl rfl ?_
    rw [apply_width h]
    refine ite_mapState rfl (bind_mapState (pushAll_apply lit s) fun _ s => ?_)
    rw [apply_width h]
    rfl
  | conv =>
    exact passes_of_finish rfl rfl
      (bind_mapState (popW_apply h leaves_data s) fun _ s => bind_advance_apply 1 (pushAll_apply _ s))
  | jmp => exact passes_of_finish rfl rfl (bind_mapState (popW_apply h leaves_data s) fun _ => goto_apply _)
  | add | sub =>
    obtain ⟨hw, ha, hb⟩ := h
    refine passes_of_finish rfl rfl ?_
    rw [apply_width hw, ha, hb]
    exact bind_advance_apply 1 (pushW_apply hw _ s)
  | jng | jne =>
    obtain ⟨hw, ha, hb⟩ := h
    refine passes_of_finish rfl rfl ?_
    simp only [aGreaterThanB, aEqualsB, ha, hb]
    exact jumpIf_apply hw _ s
  | call =>
    obtain ⟨hw, hcs⟩ := h
    exact passes_of_finish rfl rfl (bind_mapState (push_apply (k := .call) _ hcs s) fun _ s =>
      bind_mapState (popW_apply hw leaves_data s) fun _ => goto_apply _)
  | ret =>
    obtain ⟨hw, hcs⟩ := h
    exact passes_of_finish rfl rfl (bind_mapState (popW_apply (k := .call) hw hcs s) fun _ => goto_apply _)
  | setp =>
    obtain ⟨hw, hmp⟩ := h
    refine passes_of_finish rfl rfl (bind_mapState (popW_apply hw leaves_data s) fun a s => ?_)
    refine ite_mapState rfl ?_
    simp [Res.mapState, Override.apply, advance, hmp]
  | pushp =>
    obtain ⟨hw, hmp⟩ := h
    refine passes_of_finish rfl rfl ?_
    rw [apply_mp hmp]
    exact bind_advance_apply 1 (pushW_apply hw _ s)
  | mrb =>
    obtain ⟨hw, hmp, hmem⟩ := h
    refine passes_of_finish rfl rfl ?_
    rw [apply_width hw]
    refine bind_mapState (checkBlock_apply hmp _ s) fun _ s => ?_
    rw [apply_width hw, apply_mp hmp]
    exact bind_advance_apply 1 (pushBlock_apply hmem _ _ s)
  | mwb =>
    obtain ⟨hw, hmp, hmem⟩ := h
    refine passes_of_finish rfl rfl ?_
    rw [apply_width hw]
    refine bind_mapState (checkBlock_apply hmp _ s) fun _ s => ?_
    rw [apply_width hw, apply_mp hmp]
    exact bind_advance_apply 1 (popBlock_apply hmem _ _ s)
  | mrs =>
    obtain ⟨hmp, hmem⟩ := h
    refine passes_of_finish rfl rfl ?_
    rw [apply_mp hmp]
    exact bind_mapState (scanString_apply hmem _ _ s) fun _ s => bind_advance_apply 1 (pushAll_apply _ s)
  | stA => exact storeInstr_passes .a h.1 h.2
  | stB => exact storeInstr_passes .b h.1 h.2
  | stC => exact storeInstr_passes .c h.1 h.2
  | stD => exact storeInstr_passes .d h.1 h.2
  | stE => exact storeInstr_passes .e h.1 h.2
  | stF => exact storeInstr_passes .f h.1 h.2
  | stG => exact storeInstr_passes .g h.1 h.2
  | stH => exact storeInstr_passes .h h.1 h.2
  | ldA => exact loadInstr_passes .a h.1 h.2
  | ldB => exact loadInstr_passes .b h.1 h.2
  | ldC => exact loadInstr_passes .c h.1 h.2
  | ldD => exact loadInstr_passes .d h.1 h.2
  | ldE => exact loadInstr_passes .e h.1 h.2
  | ldF => exact loadInstr_passes .f h.1 h.2
  | ldG => exact loadInstr_passes .g h.1 h.2
  | ldH => exact loadInstr_passes .h h.1 h.2

/-- Two runs that raise the same fault, at the same count and with the same output, agree. -/
theorem agrees_of_raised {f g : State → State} {c : Cause} {t u : State}
    (h : exec i s = finish (.raised c t)) (hf : exec i (f s) = finish (.raised c u)) (hn : u.icount = t.icount)
    (hout : u.out = t.out) : Agrees f g i s :=
  ⟨takeFault c t, takeFault c u, h, hf, rfl, by simp [hn], hout, fun hnf => absurd rfl hnf⟩

/-- Two runs that go on to states that differ only as `g` says, with the same observations, agree. -/
theorem agrees_of_next {f g : State → State} {t : State} (h : exec i s = .next t)
    (hf : exec i (f s) = .next (g t)) (hst : (g t).status = t.status) (hfault : (g t).fault = t.fault)
    (hout : (g t).out = t.out) : Agrees f g i s :=
  ⟨t, g t, h, hf, hst, hfault, hout, fun _ => rfl⟩

/-- What does not see an override does the same under it. -/
theorem agreesUpTo_apply (hn : d.icount = none) (h : d.UnseenBy s i) : AgreesUpTo d.apply i s := by
  obtain ⟨r, hr, hd⟩ := exec_passes h
  cases r with
  | ok x t => exact agrees_of_next hr hd rfl rfl rfl
  | raised c t => exact agrees_of_raised hr hd (apply_icount hn t) rfl

end

/-! ## Which instructions do not see which element -/

section
variable {i : Instr} {s : State}

theorem regs_unseen (x : RegFile) (htransfer : ∀ r, i ≠ storeInstr r ∧ i ≠ loadInstr r)
    (hi : i ∉ [Instr.add, .sub, .jng, .jne]) : ({ regs := some x } : Override).UnseenBy s i := by
  cases i with
  | stA | ldA => simpa [storeInstr, loadInstr] using htransfer .a
  | stB | ldB => simpa [storeInstr, loadInstr] using htransfer .b
  | stC | ldC => simpa [storeInstr, loadInstr] using htransfer .c
  | stD | ldD => simpa [storeInstr, loadInstr] using htransfer .d
  | stE | ldE => simpa [storeInstr, loadInstr] using htransfer .e
  | stF | ldF => simpa [storeInstr, loadInstr] using htransfer .f
  | stG | ldG => simpa [storeInstr, loadInstr] using htransfer .g
  | stH | ldH => simpa [storeInstr, loadInstr] using htransfer .h
  | add | sub | jng | jne => simp at hi
  | _ => simp [Override.UnseenBy]

/-- Add, subtract and the conditional jumps do not see registers other than A and B. -/
theorem regs_unseen_of_ab {x : RegFile} (ha : x.a = s.regs.a) (hb : x.b = s.regs.b) :
    ∀ i ∈ [Instr.add, .sub, .jng, .jne], ({ regs := some x } : Override).UnseenBy s i := by
  simp [Override.UnseenBy, Override.apply, ha, hb]

/-- Load-register does not see registers other than its own. -/
theorem regs_unseen_of_get {x : RegFile} {r : Reg} (h : x.get r = s.regs.get r) :
    ({ regs := some x } : Override).UnseenBy s (loadInstr r) := by
  cases r <;> exact ⟨rfl, h⟩

theorem width_unseen (w : Width)
    (hi : i ∈ [Instr.esc, .pop, .nop05, .nop0A, .nop0B, .nop11, .nop13, .nop1F, .halt, .mrs, .log, .escExit,
        .escZero] ∨ (∃ b, i = .escLit b) ∨ ∃ b, i = .invalid b) :
    ({ width := some w } : Override).UnseenBy s i := by
  rcases hi with hi | ⟨b, rfl⟩ | ⟨b, rfl⟩
  · revert i
    simp [Override.UnseenBy]
  · trivial
  · trivial

theorem mem_unseen (m : Memory) (hi : i ∉ [Instr.mrb, .mrs, .mwb]) :
    ({ mem := some m } : Override).UnseenBy s i := by
  cases i with
  | mrb | mrs | mwb => simp at hi
  | _ => simp [Override.UnseenBy, Override.apply]

theorem cs_unseen (bs : List Byte) (hi : i ∉ [Instr.call, .ret]) :
    ({ cs := some bs } : Override).UnseenBy s i := by
  cases i with
  | call | ret => simp at hi
  | _ => simp [Override.UnseenBy, Override.apply]

theorem mp_unseen (a : Word) (hi : i ∉ [Instr.setp, .pushp, .mrb, .mrs, .mwb]) :
    ({ mp := some a } : Override).UnseenBy s i := by
  cases i with
  | setp | pushp | mrb | mrs | mwb => simp at hi
  | _ => simp [Override.UnseenBy, Override.apply]

theorem mode_unseen (m : Mode) (hi : i ∉ [Instr.esc, .escExit]) :
    ({ mode := some m } : Override).UnseenBy s i := by
  cases i with
  | esc | escExit => simp at hi
  | _ => simp [Override.UnseenBy, Override.apply]

theorem icount_unseen (i : Instr) (n : Nat) : ({ icount := some n } : Override).UnseenBy s i := by
  cases i <;> simp [Override.UnseenBy, Override.apply]

end

/-- Settles O6: each clause is one override, which the instructions outside the element's readers and writers do not
see. No instruction sees the count, which is only recorded when a fault is taken. -/
theorem elementsMatterOnlyToTheirReaders : Obligations.ElementsMatterOnlyToTheirReaders := by
  refine ⟨?regs, ?width, ?mem, ?cs, ?mp, ?mode, ?icount⟩
  case regs => exact fun i x s ht hi => agreesUpTo_apply (d := { regs := some x }) rfl (regs_unseen x ht hi)
  case width => exact fun i w s hi => agreesUpTo_apply (d := { width := some w }) rfl (width_unseen w hi)
  case mem => exact fun i m s hi => agreesUpTo_apply (d := { mem := some m }) rfl (mem_unseen m hi)
  case cs => exact fun i bs s hi => agreesUpTo_apply (d := { cs := some bs }) rfl (cs_unseen bs hi)
  case mp => exact fun i a s hi => agreesUpTo_apply (d := { mp := some a }) rfl (mp_unseen a hi)
  case mode => exact fun i m s hi => agreesUpTo_apply (d := { mode := some m }) rfl (mode_unseen m hi)
  case icount =>
    intro i n s
    obtain ⟨r, hr, hd⟩ := exec_passes (icount_unseen (s := s) i n)
    cases r with
    | ok x t => exact ⟨t, _, hr, hd, rfl, rfl, rfl, .inr rfl⟩
    | raised c t => exact ⟨_, _, hr, hd, rfl, rfl, rfl, .inl rfl⟩

end Sys2Proof.Machine
end

section
/-! Writers that do not read what they write (10_state.md R24, R26, R28, R32, R54; 43_memory_ops.md R174). -/

namespace Sys2Proof.Machine

/-- Store-register pops the same value whatever the registers hold, and writes it to the whole of its register. -/
theorem storeInstr_ignores_regs (r : Reg) (x : RegFile) (s : State) :
    Agrees (fun s => { s with regs := x }) (fun t => { t with regs := x.set r (t.regs.get r) })
      (storeInstr r) s := by
  have hpop : popW .data { s with regs := x } = (popW .data s).mapState fun s => { s with regs := x } :=
    popW_apply (d := { regs := some x }) rfl leaves_data s
  have hs := exec_storeInstr r s
  have hx := exec_storeInstr r { s with regs := x }
  rw [storeReg] at hs hx
  rcases popW_cases .data s with ⟨h, -⟩ | ⟨cs, h⟩ <;> rw [hpop, h] at hx <;> rw [h] at hs
  · exact agrees_of_next hs (by simpa [Res.mapState, advance, writeReg] using hx) rfl rfl rfl
  · exact agrees_of_raised hs hx rfl rfl

/-- Set-pointer pops the same address whatever MemoryPointer held, and its range check is on that address. -/
theorem setp_ignores_mp (a : Word) (s : State) : Agrees (fun s => { s with mp := a }) id .setp s := by
  have hpop : popW .data { s with mp := a } = (popW .data s).mapState fun s => { s with mp := a } :=
    popW_apply (d := { mp := some a }) rfl leaves_data s
  have hs : exec .setp s = execSetp s := rfl
  have ha : exec .setp { s with mp := a } = execSetp { s with mp := a } := rfl
  rw [execSetp] at hs ha
  rcases popW_cases .data s with ⟨h, -⟩ | ⟨cs, h⟩ <;> rw [hpop, h] at ha <;> rw [h] at hs
  · by_cases hout : s.cfg.memSize ≤ (lsbFirstValue (s.ds.take s.width.bytes)).toNat
    · simp only [bind_ok, Res.mapState, setStack_cfg, stack_data, if_pos hout] at hs ha
      exact agrees_of_raised hs ha rfl rfl
    · simp only [bind_ok, Res.mapState, setStack_cfg, stack_data, if_neg hout] at hs ha
      exact agrees_of_next hs ha rfl rfl rfl
  · exact agrees_of_raised hs ha rfl rfl

/-- From another memory, a block pop does the same but for memory itself. -/
theorem popBlock_otherMem (base n : Nat) (m : Memory) (s : State) :
    ∃ m', popBlock base n { s with mem := m } = (popBlock base n s).mapState fun t => { t with mem := m' } := by
  induction n generalizing s m with
  | zero => exact ⟨m, rfl⟩
  | succ n ih =>
    have hpop : pop .data { s with mem := m } = (pop .data s).mapState fun s => { s with mem := m } :=
      pop_apply (d := { mem := some m }) leaves_data s
    rw [popBlock, popBlock, hpop]
    rcases pop_cases .data s with ⟨b, rest, -, h⟩ | h <;> rw [h]
    · by_cases ha : s.cfg.memSize ≤ base + n
      · exact ⟨m, by simp [Res.mapState, memWrite, ha]⟩
      · obtain ⟨m', hm'⟩ := ih (m.write (base + n) b)
          { s.setStack .data rest with mem := s.mem.write (base + n) b }
        exact ⟨m', by simpa [Res.mapState, memWrite, ha] using hm'⟩
    · exact ⟨m, rfl⟩

/-- From two memories in canonical form, a block pop that goes on stores the same bytes at its addresses and leaves
every other one. -/
theorem popBlock_stores_alike {base n : Nat} {m : Memory} {s : State} (hs : s.mem.wf = true) (hm : m.wf = true)
    (inside : base + n ≤ s.cfg.memSize) (enough : n ≤ s.ds.length) :
    ∃ m₁ m₂, popBlock base n s = .ok () { s with mem := m₁, ds := s.ds.drop n } ∧
      popBlock base n { s with mem := m } = .ok () { s with mem := m₂, ds := s.ds.drop n } ∧
      m₂.wf = true ∧ ∀ a, m₂.read a = if base ≤ a ∧ a < base + n then m₁.read a else m.read a := by
  obtain ⟨m₁, h₁, -, stored₁, -⟩ := popBlock_ok hs inside enough
  obtain ⟨m₂, h₂, hw, stored₂, kept₂⟩ := popBlock_ok (s := { s with mem := m }) hm inside enough
  refine ⟨m₁, m₂, h₁, h₂, hw, fun a => ?_⟩
  split
  · have place : base + (n - 1 - (base + n - 1 - a)) = a := by omega
    have same := (stored₂ (base + n - 1 - a) (by omega)).trans (stored₁ (base + n - 1 - a) (by omega)).symm
    rwa [place] at same
  · exact kept₂ a (by omega)

theorem exec_mwb_inside {s : State} (h : s.mp.toNat + s.width.bytes ≤ s.cfg.memSize) :
    exec .mwb s =
      finish ((popBlock s.mp.toNat s.width.bytes s).bind fun _ s => .ok () (advance 1 s)) := by
  simp [exec, execMwb, checkBlock_ok h]

theorem exec_mwb_outside {s : State} (h : s.cfg.memSize < s.mp.toNat + s.width.bytes) :
    exec .mwb s = finish (.raised (.memoryFault (max s.mp.toNat s.cfg.memSize)) s) := by
  simp [exec, execMwb, checkBlock_out h]

/-- If memory-write-block does not fault, its addresses are inside memory and the stack holds its bytes. -/
theorem mwb_guards {s t : State} (h : exec .mwb s = .next t) (hnf : t.status ≠ .faulted) :
    s.mp.toNat + s.width.bytes ≤ s.cfg.memSize ∧ s.width.bytes ≤ s.ds.length := by
  by_cases inside : s.mp.toNat + s.width.bytes ≤ s.cfg.memSize
  · refine ⟨inside, Nat.le_of_not_lt fun short => hnf ?_⟩
    obtain ⟨m, cs, hp⟩ := popBlock_short inside short
    rw [exec_mwb_inside inside, hp] at h
    obtain rfl : takeFault _ _ = t := by simpa using h
    rfl
  · rw [exec_mwb_outside (by omega)] at h
    obtain rfl : takeFault _ _ = t := by simpa using h
    exact absurd rfl hnf

/-- Memory-write-block does the same whatever memory held, and stores the same bytes. -/
theorem mwb_ignores_mem (m : Memory) (s : State) : ∃ m' : Memory,
    Agrees (fun s => { s with mem := m }) (fun t => { t with mem := m' }) .mwb s ∧
    (s.mem.wf = true → m.wf = true → ∀ t, exec .mwb s = .next t → t.status ≠ .faulted → m'.wf = true ∧
      ∀ a, m'.read a =
        if s.mp.toNat ≤ a ∧ a < s.mp.toNat + s.width.bytes then t.mem.read a else m.read a) := by
  obtain ⟨m', hpop⟩ := popBlock_otherMem s.mp.toNat s.width.bytes m s
  refine ⟨m', ?agrees, ?stored⟩
  case agrees =>
    by_cases inside : s.mp.toNat + s.width.bytes ≤ s.cfg.memSize
    · have hs := exec_mwb_inside inside
      have hm : exec .mwb { s with mem := m } = _ := exec_mwb_inside inside
      rw [hpop] at hm
      cases h : popBlock s.mp.toNat s.width.bytes s with
      | ok x t =>
        rw [h] at hs hm
        exact agrees_of_next hs hm rfl rfl rfl
      | raised c t =>
        rw [h] at hs hm
        exact agrees_of_raised hs hm rfl rfl
    · have outside : s.cfg.memSize < s.mp.toNat + s.width.bytes := by omega
      exact agrees_of_raised (exec_mwb_outside outside) (exec_mwb_outside outside) rfl rfl
  case stored =>
    intro hs hm t ht hnf
    obtain ⟨inside, enough⟩ := mwb_guards ht hnf
    obtain ⟨m₁, m₂, h₁, h₂, hw, hread⟩ := popBlock_stores_alike hs hm inside enough
    obtain rfl : m₂ = m' := by simpa [h₁, h₂, Res.mapState] using hpop
    rw [exec_mwb_inside inside, h₁] at ht
    obtain rfl : advance 1 _ = t := by simpa using ht
    exact ⟨hw, hread⟩

theorem setWidth_ignores_width (w : Width) (s : State) :
    ∀ i ∈ [Instr.w1, .w2, .w4, .w8], Agrees (fun s => { s with width := w }) id i s := by
  simp only [List.forall_mem_cons, List.not_mem_nil, false_implies, implies_true, and_true]
  refine ⟨?_, ?_, ?_, ?_⟩ <;> exact agrees_of_next rfl rfl rfl rfl rfl

theorem setMode_ignores_mode (m : Mode) (s : State) :
    ∀ i ∈ [Instr.esc, .escExit], Agrees (fun s => { s with mode := m }) id i s := by
  simp only [List.forall_mem_cons, List.not_mem_nil, false_implies, implies_true, and_true]
  refine ⟨?_, ?_⟩ <;> exact agrees_of_next rfl rfl rfl rfl rfl

/-- Settles O52: the writers one by one, and the register readers as instructions that do not see an override of the
other registers. -/
theorem writersIgnoreTheOldValueAndReadersTheOtherRegisters :
    Obligations.WritersIgnoreTheOldValueAndReadersTheOtherRegisters := by
  refine ⟨?transfers, ?readers, ?width, ?mode, setp_ignores_mp, mwb_ignores_mem⟩
  case transfers =>
    exact fun r x s => ⟨storeInstr_ignores_regs r x s, fun h =>
      agreesUpTo_apply (d := { regs := some x }) rfl (regs_unseen_of_get h)⟩
  case readers =>
    exact fun i hi x s ha hb => agreesUpTo_apply (d := { regs := some x }) rfl (regs_unseen_of_ab ha hb i hi)
  case width => exact fun i hi w s => setWidth_ignores_width w s i hi
  case mode => exact fun i hi m s => setMode_ignores_mode m s i hi

end Sys2Proof.Machine
end

section
/-! The program store and the parameters of a run, which nothing writes (20_memory.md R52, 00_scope.md R9). -/

namespace Sys2Proof.Machine

section
variable {i : Instr} {s t : State}

theorem Change.prog_eq (h : Change i s t) : t.prog = s.prog := by
  cases h <;> simp

theorem Change.cfg_eq (h : Change i s t) : t.cfg = s.cfg := by
  cases h <;> simp

/-- What neither a change of `i` nor taking a fault alters, performing `i` does not alter, faulting or not. -/
theorem exec_keeps {α : Type} (f : State → α) (hchange : ∀ s t, Change i s t → f t = f s)
    (hfault : ∀ c s, f (takeFault c s) = f s) (h : exec i s = .next t) : f t = f s := by
  obtain ⟨u, hr, rfl | ⟨c, rfl⟩⟩ := exec_cases h
  · exact reaches_keeps f hchange hr
  · rw [hfault, reaches_keeps f hchange hr]

theorem exec_prog_cfg (h : exec i s = .next t) : t.prog = s.prog ∧ t.cfg = s.cfg :=
  ⟨exec_keeps State.prog (fun _ _ => Change.prog_eq) takeFault_prog h,
    exec_keeps State.cfg (fun _ _ => Change.cfg_eq) takeFault_cfg h⟩

end

/-- Settles O8: no change of an instruction writes the program or the parameters, taking a fault does not either,
and a step ends the run or performs an instruction. -/
theorem programIsNeverWritten : Obligations.ProgramIsNeverWritten := by
  refine ⟨fun i s t => exec_prog_cfg, fun s t h => ?_⟩
  obtain ⟨-, rfl | ⟨i, hi⟩⟩ := step_cases h
  · exact ⟨rfl, rfl⟩
  · exact (exec_prog_cfg hi :)

end Sys2Proof.Machine
end

section
/-! Width-wide values on the data stack: a push and then a pop, at one Width (20_memory.md R66) and at two (R68).
The bytes of a value split where its quotient and remainder do, and the value of bytes is taken apart alike. -/

namespace Sys2Proof.Machine

/-! ## The bytes of a value and the value of bytes -/

@[simp] theorem stackBytes_length (n v : Nat) : (stackBytes n v).length = n := by
  simp [stackBytes]

/-- The low `m` bytes lie above the bytes of the rest of the value. -/
theorem stackBytes_add (m n v : Nat) :
    stackBytes (m + n) v = stackBytes m v ++ stackBytes n (v / 2 ^ (8 * m)) := by
  simp [stackBytes, List.range_add, Nat.div_div_eq_div_mul, mul_add, pow_add]

theorem stackBytes_split {m n : Nat} (h : m ≤ n) (v : Nat) :
    stackBytes n v = stackBytes m v ++ stackBytes (n - m) (v / 2 ^ (8 * m)) := by
  rw [← stackBytes_add, Nat.add_sub_cancel' h]

theorem stackBytes_succ (n v : Nat) :
    stackBytes (n + 1) v = BitVec.ofNat 8 v :: stackBytes n (v / 2 ^ 8) := by
  rw [Nat.add_comm, stackBytes_add]
  simp [stackBytes]

theorem littleEndian_append (as bs : List Byte) :
    littleEndian (as ++ bs) = littleEndian as + 2 ^ (8 * as.length) * littleEndian bs := by
  induction as with
  | nil => simp [littleEndian]
  | cons a as ih =>
    rw [List.cons_append, littleEndian, ih, littleEndian, List.length_cons]
    ring

/-- The bytes of a value give back as much of it as they hold. -/
theorem littleEndian_stackBytes (n v : Nat) : littleEndian (stackBytes n v) = v % 2 ^ (8 * n) := by
  induction n generalizing v with
  | zero => simp [stackBytes, littleEndian, Nat.mod_one]
  | succ n ih =>
    calc littleEndian (stackBytes (n + 1) v)
      _ = v % 2 ^ 8 + 2 ^ 8 * (v / 2 ^ 8 % 2 ^ (8 * n)) := by
        rw [stackBytes_succ, littleEndian, ih, BitVec.toNat_ofNat, show 2 ^ 8 = 256 from rfl]
      _ = v % 2 ^ (8 * (n + 1)) := by
        rw [← Nat.mod_mul, ← pow_add, Nat.mul_succ, Nat.add_comm 8]

/-! ## A pop from bytes known to be on top -/

/-- A pop takes the bytes on top, where there are exactly `W` of them, and answers their value. -/
theorem popW_append {s : State} {bs rest : List Byte} (hs : s.ds = bs ++ rest) (hn : bs.length = s.width.bytes) :
    ∃ x, popW .data s = .ok x { s with ds := rest } ∧ x.toNat = littleEndian bs := by
  have enough : s.width.bytes ≤ (s.stack .data).length := by simp [hs, hn]
  have top : (s.stack .data).take s.width.bytes = bs := by simp [hs, ← hn]
  have below : (s.stack .data).drop s.width.bytes = rest := by simp [hs, ← hn]
  refine ⟨lsbFirstValue bs, ?_, ?_⟩
  · rw [popW_ok enough, top, below]
    rfl
  · rw [← top, popped_toNat]

/-- A pop takes the bytes of a value from above the rest of the stack, and answers their part of the value. -/
theorem popW_stackBytes {s : State} {v : Nat} {rest : List Byte} (hs : s.ds = stackBytes s.width.bytes v ++ rest) :
    ∃ x, popW .data s = .ok x { s with ds := rest } ∧ x.toNat = v % 2 ^ (8 * s.width.bytes) := by
  rw [← littleEndian_stackBytes]
  exact popW_append hs (stackBytes_length _ _)

/-- Settles O9: the bytes on top are those of the value, which is its own remainder. -/
theorem popWidthReturnsWhatPushWidthPushed : Obligations.PopWidthReturnsWhatPushWidthPushed := by
  intro s v hv room
  obtain ⟨x, hpop, hx⟩ :=
    popW_stackBytes (s := { s with ds := stackBytes s.width.bytes v.toNat ++ s.ds }) (rest := s.ds) rfl
  have hxv : x = v := BitVec.eq_of_toNat_eq (hx.trans (Nat.mod_eq_of_lt hv))
  exact ⟨_, pushW_ok room, hxv ▸ hpop⟩

/-- Settles O10: a narrower pop splits the bytes of the value, and a wider one joins to all of them the bytes
beneath, if there are enough. -/
theorem popAtAnotherWidthSplitsOrJoinsBytes : Obligations.PopAtAnotherWidthSplitsOrJoinsBytes := by
  intro s v w' room
  obtain ⟨t, hpush, hds⟩ : ∃ t, pushW v s = .ok () t ∧ t.ds = stackBytes s.width.bytes v.toNat ++ s.ds :=
    ⟨_, pushW_ok room, rfl⟩
  refine ⟨t, hpush, fun narrower => ?split, fun wider enough => ?join, fun short => ?underflow⟩
  case split =>
    rw [stackBytes_split narrower.le, List.append_assoc] at hds
    obtain ⟨x, hpop, hx⟩ := popW_stackBytes (s := { t with width := w' }) hds
    exact ⟨x, _, hpop, hx, rfl⟩
  case join =>
    rw [← List.take_append_drop (w'.bytes - s.width.bytes) s.ds, ← List.append_assoc] at hds
    obtain ⟨x, hpop, hx⟩ := popW_append (s := { t with width := w' }) hds (by simp; omega)
    refine ⟨x, _, hpop, ?_, rfl⟩
    rw [hx, littleEndian_append, littleEndian_stackBytes, stackBytes_length]
  case underflow =>
    obtain ⟨cs, hpop⟩ := popW_short (k := .data) (s := { t with width := w' }) (by simpa [hds] using short)
    exact ⟨_, hpop⟩

end Sys2Proof.Machine
end

section
/-! The decoder and the encoder (30_encoding.md R90 to R104): what the Normal-mode map answers on a byte, said once,
and what each mode reads back of an instruction's bytes. -/

namespace Sys2Proof

theorem invalidOpcode_iff {b : Byte} : invalidOpcode b = true ↔
    b.toNat = 0x04 ∨ b.toNat = 0x17 ∨ b.toNat = 0x18 ∨ b.toNat = 0x19 ∨ 0x30 ≤ b.toNat := by
  simp only [invalidOpcode, Bool.or_eq_true, Bool.and_eq_true, beq_iff_eq, decide_eq_true_eq]
  omega

theorem wfIn_iff {m : Mode} {w : Width} {i : Instr} :
    i.wfIn m w = true ↔ i.wf = true ∧ i.mode = m ∧ i.fits w = true := by
  simp [Instr.wfIn, and_assoc]

theorem pushl_wfIn {w : Width} {lit : List Byte} (h : lit.length = w.bytes) :
    (Instr.pushl lit).wfIn .normal w = true := by
  cases w <;> simp_all [Instr.wfIn, Instr.wf, Instr.mode, Instr.fits, Width.bytes]

/-! ## The maps of the two modes -/

theorem byte_eq_ofNat {b : Byte} {n : Nat} (h : b.toNat = n) : b = BitVec.ofNat 8 n := by
  simp [← h]

/-- A Normal-mode byte is 0x01, is no opcode, or is the one byte of an instruction. In the proof, arm 2 of the map
is that of 0x01, and arm 45 is that of every byte which the other arms leave. -/
theorem decodeNormal_cases (w : Width) (b : Byte) (rest : List Byte) :
    b = 0x01 ∨
    (invalidOpcode b = true ∧ decodeNormal w b rest = .ok (.invalid b) rest) ∨
    (invalidOpcode b = false ∧
      ∃ i : Instr, decodeNormal w b rest = .ok i rest ∧ i.wfIn .normal w = true ∧ encode i = [b]) := by
  unfold decodeNormal
  split
  case h_2 opcode => exact .inl (byte_eq_ofNat opcode)
  case h_45 => exact .inr (.inl ⟨invalidOpcode_iff.mpr (by grind), rfl⟩)
  all_goals
    rename_i opcode
    obtain rfl := byte_eq_ofNat opcode
    exact .inr (.inr ⟨rfl, _, rfl, rfl, rfl⟩)

theorem decodeNormal_literal (w : Width) (bs : List Byte) :
    decodeNormal w 0x01 bs = .ok (.pushl (bs.take w.bytes)) (bs.drop w.bytes) := rfl

theorem decodeNormal_invalid {b : Byte} (h : invalidOpcode b = true) (w : Width) (rest : List Byte) :
    decodeNormal w b rest = .ok (.invalid b) rest := by
  rcases decodeNormal_cases w b rest with rfl | ⟨-, hd⟩ | ⟨hv, -⟩
  · exact absurd h (by decide)
  · exact hd
  · simp [hv] at h

theorem decodeEscape_lit {b : Byte} (h0 : b ≠ 0x00) (hF : b ≠ 0xFF) : decodeEscape b = .escLit b := by
  unfold decodeEscape
  split
  case h_1 payload => exact absurd (BitVec.eq_of_toNat_eq payload) h0
  case h_2 payload => exact absurd (BitVec.eq_of_toNat_eq payload) hF
  case h_3 => rfl

/-! ## Reading back what was encoded -/

/-- An instruction's mode is the one it is decoded in, and its first byte stands for it in that mode's map; the
operands are a literal of the length that the Width takes, a payload byte and an invalid opcode. -/
theorem decode_encode {m : Mode} {w : Width} {i : Instr} {rest : List Byte} (h : i.wfIn m w = true) :
    decode m w (encode i ++ rest) = .ok i rest := by
  obtain ⟨hwf, rfl, hfits⟩ := wfIn_iff.mp h
  cases i with
  | pushl lit =>
    have hlen : lit.length = w.bytes := by simpa [Instr.fits] using hfits
    calc decodeNormal w 0x01 (lit ++ rest)
      _ = .ok (.pushl ((lit ++ rest).take w.bytes)) ((lit ++ rest).drop w.bytes) := decodeNormal_literal w _
      _ = .ok (.pushl lit) rest := by rw [← hlen, List.take_left, List.drop_left]
  | escLit b =>
    obtain ⟨h0, hF⟩ : b ≠ 0x00 ∧ b ≠ 0xFF := by simpa [Instr.wf] using hwf
    exact congrArg (Decoded.ok · rest) (decodeEscape_lit h0 hF)
  | invalid b => exact decodeNormal_invalid hwf w rest
  | _ => rfl

/-- Settles O11, by the case split over the instructions in `decode_encode`. -/
theorem decodeReadsBackEveryEncoding : Obligations.DecodeReadsBackEveryEncoding :=
  fun _ _ _ _ => decode_encode

theorem decodesTo_escape (b : Byte) : Machine.DecodesTo .escape b (decodeEscape b) :=
  fun _ _ => rfl

theorem decodesTo_invalid {b : Byte} (h : invalidOpcode b = true) : Machine.DecodesTo .normal b (.invalid b) :=
  fun w => decodeNormal_invalid h w

/-- Settles O12: in Escape mode each byte is an instruction; in Normal mode a byte is one but for 0x01, which takes
its literal from the bytes after it, or what is left of them. -/
theorem everyByteStartsOneInstruction : Obligations.EveryByteStartsOneInstruction := by
  intro m w b bs
  cases m with
  | escape =>
    refine ⟨decodeEscape b, bs, decodesTo_escape b w bs, .inl ?_⟩
    by_cases h0 : b = 0x00
    · subst h0
      exact ⟨rfl, rfl⟩
    by_cases hF : b = 0xFF
    · subst hF
      exact ⟨rfl, rfl⟩
    rw [decodeEscape_lit h0 hF]
    exact ⟨by simpa [wfIn_iff, Instr.wf, Instr.mode, Instr.fits] using ⟨h0, hF⟩, rfl⟩
  | normal =>
    rcases decodeNormal_cases w b bs with rfl | ⟨hb, hd⟩ | ⟨-, i, hd, hwf, he⟩
    · refine ⟨_, _, decodeNormal_literal w bs, ?_⟩
      by_cases short : bs.length < w.bytes
      · rw [List.take_of_length_le short.le, List.drop_of_length_le short.le]
        exact .inr ⟨rfl, rfl, short, rfl, rfl⟩
      · exact .inl ⟨pushl_wfIn (by simp; omega), by simp [encode]⟩
    · exact ⟨_, _, hd, .inl ⟨wfIn_iff.mpr ⟨hb, rfl, rfl⟩, rfl⟩⟩
    · exact ⟨_, _, hd, .inl ⟨hwf, by simp [he]⟩⟩

/-- Settles O13: each word is the encoding of its instruction, which the decoder reads back. -/
theorem wordsOfTheOpcodeMapDecode : Obligations.WordsOfTheOpcodeMapDecode := by
  exact ⟨decode_encode (i := .esc) rfl, decode_encode (i := .pushl [0x12, 0x34]) rfl, decode_encode (i := .call) rfl,
    decode_encode (i := .mwb) rfl, decode_encode (i := .w8) rfl, decode_encode (i := .stH) rfl,
    decode_encode (i := .sub) rfl, decode_encode (i := .log) rfl, decode_encode (i := .invalid 0x19) rfl,
    decode_encode (i := .escLit 0x0E) rfl, decode_encode (i := .escZero) rfl, decode_encode (i := .escExit) rfl⟩

end Sys2Proof
end

section
/-! A step on a byte that is known (40_decode_loop.md R110 to R113): the Escape-mode payload (R100, R115 to R117) and
the invalid opcodes (R98, R124). -/

namespace Sys2Proof.Machine

/-! ## The byte at the program counter -/

theorem step_of_decode {s : State} {i : Instr} {rest : List Byte} (hs : s.status = .running)
    (hd : decode s.mode s.width (progFrom s s.pc) = .ok i rest) :
    step s = exec i { s with icount := s.icount + 1 } := by
  simp [step, fetchTurn, hs, hd]

theorem progFrom_pc {s : State} {b : Byte} (h : s.prog[s.pc]? = some b) :
    progFrom s s.pc = b :: progFrom s (s.pc + 1) := by
  obtain ⟨hlt, rfl⟩ := List.getElem?_eq_some_iff.mp h
  exact List.drop_eq_getElem_cons hlt

/-- A step on a byte that is a whole instruction performs that instruction. -/
theorem step_of_decodesTo {s : State} {b : Byte} {i : Instr} (hs : s.status = .running)
    (hb : s.prog[s.pc]? = some b) (hd : DecodesTo s.mode b i) :
    step s = exec i { s with icount := s.icount + 1 } :=
  step_of_decode hs (by rw [progFrom_pc hb]; exact hd _ _)

/-! ## Escape mode -/

theorem exec_escExit (s : State) : exec .escExit s = .next { s with mode := .normal, pc := s.pc + 1 } := rfl

/-- The one push that the two pushing Escape-mode actions share. -/
theorem finish_push_advance {b : Byte} {s : State} (room : s.ds.length < s.cfg.dstackCap) :
    finish ((push .data b s).bind fun _ s => .ok () (advance 1 s)) =
      .next { s with ds := b :: s.ds, pc := s.pc + 1 } := by
  rw [push_ok (by simpa using room)]
  rfl

theorem exec_escZero {s : State} (room : s.ds.length < s.cfg.dstackCap) :
    exec .escZero s = .next { s with ds := 0x00 :: s.ds, pc := s.pc + 1 } :=
  finish_push_advance room

theorem exec_escLit {b : Byte} {s : State} (room : s.ds.length < s.cfg.dstackCap) :
    exec (.escLit b) s = .next { s with ds := b :: s.ds, pc := s.pc + 1 } :=
  finish_push_advance room

/-- Settles O21: the step performs what the Escape-mode map has for the byte, one of its three actions. -/
theorem escapeModeStepNeverRunsAnOpcode : Obligations.EscapeModeStepNeverRunsAnOpcode := by
  intro s b hs hm hb
  have hstep : step s = exec (decodeEscape b) { s with icount := s.icount + 1 } :=
    step_of_decodesTo hs hb (hm ▸ decodesTo_escape b)
  refine ⟨s.icount + 1, fun h0 => ?exit, fun h0 room => ?push⟩
  case exit =>
    rw [hstep, h0]
    exact exec_escExit _
  case push =>
    by_cases hF : b = 0xFF
    · rw [hstep, if_pos hF, hF]
      exact exec_escZero room
    · rw [hstep, if_neg hF, decodeEscape_lit h0 hF]
      exact exec_escLit room

/-! ## Invalid opcodes -/

theorem exec_invalid (b : Byte) (s : State) : exec (.invalid b) s = .next (takeFault (.invalidOpcode b) s) := rfl

/-- Only an invalid opcode decodes to an invalid instruction: what it decodes to is well formed and has the byte as
its encoding. -/
theorem invalidOpcode_of_decodesTo {b c : Byte} (h : DecodesTo .normal b (.invalid c)) : invalidOpcode b = true := by
  obtain ⟨i, rest, hd, henc⟩ := everyByteStartsOneInstruction .normal .w1 b []
  obtain ⟨rfl, rfl⟩ : Instr.invalid c = i ∧ [] = rest := by simpa [h .w1 []] using hd
  obtain ⟨hwf, hbytes⟩ | ⟨-, -, -, hi, -⟩ := henc
  · obtain rfl : b = c := by simpa [encode] using hbytes
    exact (wfIn_iff.mp hwf).1
  · cases hi

/-- Settles O23: by the round trip of encoding and decoding the invalid opcodes are the 212 bytes, and performing one
takes its fault. -/
theorem invalidOpcodesFault : Obligations.InvalidOpcodesFault := by
  intro b
  refine ⟨?opcodes, exec_invalid b, fun s hs hm hb h => ?step⟩
  case opcodes =>
    rw [← invalidOpcode_iff]
    exact ⟨fun ⟨_, h⟩ => invalidOpcode_of_decodesTo h, fun h => ⟨b, decodesTo_invalid h⟩⟩
  case step =>
    have hdecode : DecodesTo s.mode b (.invalid b) := hm ▸ decodesTo_invalid (invalidOpcode_iff.mpr h)
    exact ⟨_, (step_of_decodesTo hs hb hdecode).trans (exec_invalid _ _), by simp⟩

end Sys2Proof.Machine
end

section
/-! Push-literal (41_stack_width.md R140): its literal is taken from the program (30_encoding.md R92), and lies on the
data stack as a big-endian number (R95). -/

namespace Sys2Proof.Machine

theorem exec_pushl_truncated {lit : List Byte} {s : State} (h : s.prog.length ≤ s.pc + s.width.bytes) :
    exec (.pushl lit) s = .next (takeFault (.truncatedLiteral s.pc) s) := by
  rw [exec, execPushl, if_pos h, finish_raised]

theorem exec_pushl_complete {lit : List Byte} {s : State} (h : s.pc + s.width.bytes < s.prog.length) :
    exec (.pushl lit) s =
      finish ((pushAll .data lit s).bind fun _ s => .ok () (advance (1 + s.width.bytes) s)) := by
  rw [exec, execPushl, if_neg (by omega)]

/-- With the literal complete and room for it, its bytes are pushed in stream order. -/
theorem exec_pushl_room {lit : List Byte} {s : State} (h : s.pc + s.width.bytes < s.prog.length)
    (room : s.ds.length + lit.length ≤ s.cfg.dstackCap) :
    exec (.pushl lit) s = .next { s with ds := lit.reverse ++ s.ds, pc := s.pc + 1 + s.width.bytes } := by
  rw [exec_pushl_complete h, pushAll_ok (by simpa using room), bind_ok, finish_ok, Nat.add_assoc]
  rfl

/-- Settles O25: the decoder reads the `W` bytes after the 0x01 as the literal, and performing the push-literal
pushes them. -/
theorem pushLiteralReadsTheStream : Obligations.PushLiteralReadsTheStream := by
  intro s before lit after hs hm hprog hpc hlen room
  have hstream : progFrom s s.pc = encode (.pushl lit) ++ after := by
    rw [progFrom, hprog, ← hpc, List.drop_left]
    rfl
  have hdecode : decode s.mode s.width (progFrom s s.pc) = .ok (.pushl lit) after := by
    rw [hstream, hm]
    exact decode_encode (pushl_wfIn hlen)
  have hcomplete : s.pc + s.width.bytes < s.prog.length := by
    simp [hprog]
    omega
  exact ⟨s.icount + 1, (step_of_decode hs hdecode).trans (exec_pushl_room hcomplete (by rwa [hlen]))⟩

/-- A push-literal that does not fault leaves its bytes on top of the data stack, the last one topmost, and the
Width as it was. -/
theorem exec_pushl_next {lit : List Byte} {s t : State} (h : exec (.pushl lit) s = .next t)
    (hnf : t.status ≠ .faulted) : t.ds = lit.reverse ++ s.ds ∧ t.width = s.width := by
  by_cases hp : s.pc + s.width.bytes < s.prog.length
  · rw [exec_pushl_complete hp] at h
    rcases pushAll_cases .data lit s with ⟨hok, -⟩ | ⟨cs, hraised⟩
    · obtain rfl : _ = t := by simpa [hok] using h
      simp
    · obtain rfl : _ = t := by simpa [hraised] using h
      simp at hnf
  · obtain rfl : _ = t := by simpa [exec_pushl_truncated (Nat.le_of_not_lt hp)] using h
    simp at hnf

theorem littleEndian_eq_foldr (bs : List Byte) : littleEndian bs = bs.foldr (fun b n => 256 * n + b.toNat) 0 := by
  induction bs with
  | nil => rfl
  | cons b rest ih => rw [littleEndian, ih, List.foldr_cons, Nat.add_comm]

/-- The value of reversed bytes is that of the bytes read with the first one most significant. -/
theorem littleEndian_reverse (bs : List Byte) :
    littleEndian bs.reverse = bs.foldl (fun n b => 256 * n + b.toNat) 0 := by
  rw [littleEndian_eq_foldr, List.foldr_reverse]

/-- Settles O26: the literal lies reversed on the stack, and a pop at the Width of its length answers the value of
the reversed bytes. -/
theorem literalReadsBackBigEndian : Obligations.LiteralReadsBackBigEndian := by
  intro lit s t hlen hexec hnf
  obtain ⟨hds, hwidth⟩ := exec_pushl_next hexec hnf
  obtain ⟨v, hpop, hv⟩ := popW_append hds (by rw [List.length_reverse, hlen, hwidth])
  exact ⟨v, _, hpop, hv.trans (littleEndian_reverse lit), rfl⟩

end Sys2Proof.Machine
end

section
/-! The fetch-decode-execute loop (40_decode_loop.md R110 to R126): every turn in Running either ends the run at the
end of the program or counts the byte at the PC and performs an instruction, which always answers a next state. Then
the one-byte actions of the loop's own section: the escape toggle, the escape payload and the no-operations. -/

namespace Sys2Proof.Machine

/-! ## A turn of the loop -/

/-- Settles O14: the bytes from `pc` on are those that the turn decodes. -/
theorem stepRunsTheDecodedInstruction : Obligations.StepRunsTheDecodedInstruction :=
  fun _ _ _ hs hd => step_of_decode hs hd

theorem progFrom_eq_nil {s : State} {a : Nat} (h : s.prog.length ≤ a) : progFrom s a = [] :=
  List.drop_eq_nil_of_le h

/-- With no byte left the decoder rejects, in either mode, and the turn ends the run. -/
theorem step_at_end {s : State} (hs : s.status = .running) (h : s.prog.length ≤ s.pc) :
    step s = .next { s with status := .halted } := by
  simp [step, fetchTurn, hs, progFrom_eq_nil h, decode]

/-- Settles O15: the model leaves the PC where it was. -/
theorem stepHaltsAtProgramEnd : Obligations.StepHaltsAtProgramEnd :=
  fun s hs h => ⟨s.pc, step_at_end hs h⟩

/-- With a byte left there is an instruction that it starts, so the turn counts the byte and performs that one. -/
theorem step_of_fetch {s : State} (hs : s.status = .running) (h : s.pc < s.prog.length) :
    ∃ i, step s = exec i { s with icount := s.icount + 1 } := by
  have hbyte : progFrom s s.pc = s.prog[s.pc] :: progFrom s (s.pc + 1) :=
    progFrom_pc (List.getElem?_eq_getElem h)
  obtain ⟨i, rest, hd, -⟩ := everyByteStartsOneInstruction s.mode s.width s.prog[s.pc] (progFrom s (s.pc + 1))
  exact ⟨i, step_of_decode hs (hbyte ▸ hd)⟩

/-- No instruction stops the machine: its primitives go on or take a fault, and both are next states. -/
theorem exec_next (i : Instr) (s : State) : ∃ t, exec i s = .next t := by
  obtain ⟨r, hr, -⟩ := exec_madeOfChanges i s
  cases r with
  | ok x t => exact ⟨t, hr⟩
  | raised c t => exact ⟨takeFault c t, hr⟩

/-- The turn counts, not the instruction. -/
theorem exec_icount {i : Instr} {s t : State} (h : exec i s = .next t) : t.icount = s.icount :=
  exec_keeps State.icount (fun _ _ => Change.icount_eq) takeFault_icount h

/-- Settles O17: with a byte left the step is one instruction after the count, and at the end it is the halt. -/
theorem everyRunningStepAdvancesHaltsOrFaults : Obligations.EveryRunningStepAdvancesHaltsOrFaults := by
  intro s hs
  by_cases hpc : s.pc < s.prog.length
  · obtain ⟨i, hstep⟩ := step_of_fetch hs hpc
    obtain ⟨t, ht⟩ := exec_next i { s with icount := s.icount + 1 }
    exact ⟨t, hstep.trans ht, by rw [if_pos hpc, exec_icount ht]⟩
  · exact ⟨_, step_at_end hs (Nat.le_of_not_lt hpc), (if_neg hpc).symm⟩

/-! ## The escape toggle and the escape payload -/

theorem exec_esc (s : State) : exec .esc s = .next { s with mode := .escape, pc := s.pc + 1 } := rfl

/-- Settles O19: 0x00 is the toggle in both maps, and each of its two actions writes only mode and the PC. -/
theorem escapeByteTogglesMode : Obligations.EscapeByteTogglesMode :=
  ⟨fun _ _ => rfl, decodesTo_escape 0x00, fun s => ⟨exec_esc s, exec_escExit s⟩⟩

/-- A fault raised by the primitives, in a state with the step's count, is the fault of the instruction. -/
theorem faultsWith_of_raised {i : Instr} {s u : State} {c : Cause} (h : exec i s = finish (.raised c u))
    (hn : u.icount = s.icount) : FaultsWith i s c u.out :=
  ⟨takeFault c u, h, rfl, by rw [takeFault_fault, hn], rfl⟩

theorem faults_of_push_full {i : Instr} {b : Byte} {s : State} (full : s.cfg.dstackCap ≤ s.ds.length)
    (h : exec i s = finish ((push .data b s).bind fun _ s => .ok () (advance 1 s))) :
    Faults i s (.stackOverflow .data) := by
  rw [push_full (k := .data) full, bind_raised] at h
  exact faultsWith_of_raised h rfl

/-- Settles O20: each payload action is one push and the move past its byte. -/
theorem escapePayloadPushesOneByte : Obligations.EscapePayloadPushesOneByte := by
  refine ⟨decodesTo_escape 0xFF, fun b h0 hF => ?literal, fun s => ⟨fun room => ?push, fun full => ?overflow⟩⟩
  case literal =>
    rw [← decodeEscape_lit h0 hF]
    exact decodesTo_escape b
  case push => exact ⟨exec_escZero room, fun _ => exec_escLit room⟩
  case overflow => exact ⟨faults_of_push_full full rfl, fun _ => faults_of_push_full full rfl⟩

/-! ## The no-operations -/

/-- The six no-operations (R118 to R123). -/
theorem exec_nop {i : Instr} (hi : i ∈ [Instr.nop05, .nop0A, .nop0B, .nop11, .nop13, .nop1F]) (s : State) :
    exec i s = .next { s with pc := s.pc + 1 } := by
  simp only [List.mem_cons, List.not_mem_nil, or_false] at hi
  rcases hi with rfl | rfl | rfl | rfl | rfl | rfl
  all_goals rfl

/-- Settles O22: each of the six bytes is a whole instruction in the Normal-mode map, whose meaning is the move past
its byte. -/
theorem noOperationsOnlyAdvance : Obligations.NoOperationsOnlyAdvance := by
  refine ⟨⟨?_, ?_, ?_, ?_, ?_, ?_⟩, fun _ => exec_nop⟩
  all_goals exact fun _ _ => rfl

end Sys2Proof.Machine
end

section
/-! Push-literal with and without its bytes (41_stack_width.md R140), pop-discard (R141) and the set-width opcodes
(R142 to R145). -/

namespace Sys2Proof.Machine

/-! ## Push-literal -/

theorem faults_pushl_truncated {lit : List Byte} {s : State} (h : s.prog.length ≤ s.pc + s.width.bytes) :
    Faults (.pushl lit) s (.truncatedLiteral s.pc) :=
  faultsWith_of_raised (exec_pushl_truncated h) rfl

/-- With the literal complete and no room for all of it, the push of one of its bytes overflows. -/
theorem faults_pushl_full {lit : List Byte} {s : State} (hlit : lit ≠ [])
    (h : s.pc + s.width.bytes < s.prog.length) (full : s.cfg.dstackCap < s.ds.length + lit.length) :
    Faults (.pushl lit) s (.stackOverflow .data) := by
  obtain ⟨cs, hpush⟩ := pushAll_full (k := .data) hlit full
  have hexec : exec (.pushl lit) s = finish (.raised (.stackOverflow .data) (s.setStack .data cs)) := by
    rw [exec_pushl_complete h, hpush, bind_raised]
  exact faultsWith_of_raised (u := s.setStack .data cs) hexec rfl

/-- A step on 0x01 in Normal mode performs a push-literal of the bytes after it, at most `W` of them. -/
theorem step_pushl {s : State} (hs : s.status = .running) (hm : s.mode = .normal)
    (hb : s.prog[s.pc]? = some 0x01) :
    step s = exec (.pushl ((progFrom s (s.pc + 1)).take s.width.bytes)) { s with icount := s.icount + 1 } := by
  have hdecode : decode s.mode s.width (progFrom s s.pc) =
      .ok (.pushl ((progFrom s (s.pc + 1)).take s.width.bytes)) ((progFrom s (s.pc + 1)).drop s.width.bytes) := by
    rw [hm, progFrom_pc hb]
    exact decodeNormal_literal _ _
  exact step_of_decode hs hdecode

/-- Settles O24: the three outcomes of the instruction, of which the step on a truncated literal has the last, whatever
bytes the decoder found. -/
theorem pushLiteralPushesItsBytes : Obligations.PushLiteralPushesItsBytes := by
  refine ⟨fun lit s => ⟨fun hlen hp room => ?room, fun hlen hp full => ?full, faults_pushl_truncated⟩,
    fun s hs hm hb hp => ?step⟩
  case room => exact exec_pushl_room hp (hlen ▸ room)
  case full =>
    have hlit : lit ≠ [] := List.ne_nil_of_length_pos (hlen ▸ width_bytes_pos s.width)
    exact faults_pushl_full hlit hp (hlen ▸ full)
  case step =>
    obtain ⟨t, ht, hstatus, hfault, hout⟩ :=
      faults_pushl_truncated (lit := (progFrom s (s.pc + 1)).take s.width.bytes)
        (s := { s with icount := s.icount + 1 }) hp
    exact ⟨t, (step_pushl hs hm hb).trans ht, hstatus, hout, hfault⟩

/-! ## Pop-discard -/

theorem exec_pop_cons {b : Byte} {rest : List Byte} {s : State} (h : s.ds = b :: rest) :
    exec .pop s = .next { s with ds := rest, pc := s.pc + 1 } := by
  rw [exec, execPop, pop_cons (k := .data) h]
  rfl

theorem faults_pop_nil {s : State} (h : s.ds = []) : Faults .pop s (.stackUnderflow .data) := by
  have hexec : exec .pop s = finish (.raised (.stackUnderflow .data) s) := by
    rw [exec, execPop, pop_nil (k := .data) h, bind_raised]
  exact faultsWith_of_raised hexec rfl

/-- Settles O27: the one pop of the instruction does not read the Width. -/
theorem popDiscardsOneByte : Obligations.PopDiscardsOneByte :=
  ⟨fun _ _ => rfl, fun _ => ⟨fun _ _ => exec_pop_cons, faults_pop_nil⟩⟩

/-! ## The set-width opcodes -/

/-- Settles O28: each of the four opcodes names its Width, and its meaning writes that and the PC. -/
theorem setWidthChangesOnlyWidth : Obligations.SetWidthChangesOnlyWidth := by
  refine ⟨⟨fun _ _ => rfl, fun _ _ => rfl, fun _ _ => rfl, fun _ _ => rfl⟩, fun p hp s => ?_⟩
  simp only [List.mem_cons, List.not_mem_nil, or_false] at hp
  rcases hp with rfl | rfl | rfl | rfl
  · exact ⟨.w1, rfl, rfl⟩
  · exact ⟨.w2, rfl, rfl⟩
  · exact ⟨.w4, rfl, rfl⟩
  · exact ⟨.w8, rfl, rfl⟩

end Sys2Proof.Machine
end

section
/-! The push that ends an instruction (20_memory.md R64), and the load-registers (42_registers.md R151 and its
family), each of which is that push with the value of its register. -/

namespace Sys2Proof.Machine

/-! ## A Width-wide push, then the move past the opcode -/

theorem exec_of_pushW_room {i : Instr} {v : Word} {s : State}
    (h : exec i s = finish ((pushW v s).bind fun _ s => .ok () (advance 1 s)))
    (room : s.ds.length + s.width.bytes ≤ s.cfg.dstackCap) :
    exec i s = .next { s with ds := stackBytes s.width.bytes v.toNat ++ s.ds, pc := s.pc + 1 } := by
  rw [h, pushW_ok room, bind_ok, finish_ok]
  rfl

/-- Some of the bytes may have been pushed before the one that overflows; the record does not tell. -/
theorem faults_of_pushW_full {i : Instr} {v : Word} {s : State}
    (h : exec i s = finish ((pushW v s).bind fun _ s => .ok () (advance 1 s)))
    (full : s.cfg.dstackCap < s.ds.length + s.width.bytes) : Faults i s (.stackOverflow .data) := by
  obtain ⟨cs, hpush⟩ := pushW_full (v := v) full
  rw [hpush, bind_raised] at h
  exact faultsWith_of_raised (u := { s with ds := cs }) h rfl

/-! ## The load-registers -/

/-- The odd opcodes 0x21 to 0x2F (30_encoding.md R94). -/
theorem decodesTo_loadInstr (r : Reg) :
    DecodesTo .normal (BitVec.ofNat 8 (0x21 + 2 * regIndex r)) (loadInstr r) := by
  cases r
  all_goals exact fun _ _ => rfl

/-- Settles O30: a load-register is the Width-wide push of its register's value, and the move past its opcode. -/
theorem loadRegisterPushesLowBytes : Obligations.LoadRegisterPushesLowBytes :=
  fun r => ⟨decodesTo_loadInstr r,
    fun s => ⟨exec_of_pushW_room (exec_loadInstr r s), faults_of_pushW_full (exec_loadInstr r s)⟩⟩

end Sys2Proof.Machine
end

section
/-! The Memory Unit (43_memory_ops.md R170 to R175): set-pointer, push-pointer, the block read, the string read and the
block write, and what a block write and a block read make together. -/

namespace Sys2Proof.Machine

/-! ## The MemoryPointer -/

/-- With enough bytes for the address, what is left of set-pointer is the range check on its value. -/
theorem exec_setp_popped {s : State} (enough : s.width.bytes ≤ s.ds.length) :
    exec .setp s = finish (if s.cfg.memSize ≤ littleEndian (s.ds.take s.width.bytes)
      then .raised (.memoryFault (littleEndian (s.ds.take s.width.bytes))) { s with ds := s.ds.drop s.width.bytes }
      else .ok () { s with
        mp := BitVec.ofNat 64 (littleEndian (s.ds.take s.width.bytes)),
        ds := s.ds.drop s.width.bytes, pc := s.pc + 1 }) := by
  rw [exec, execSetp, popW_ok (k := .data) enough, bind_ok, stack_data, popped_toNat, popped_eq]
  rfl

/-- Settles O31: the pop and the range check decide between the three outcomes. -/
theorem setPointerChecksItsAddress : Obligations.SetPointerChecksItsAddress := by
  refine ⟨fun _ _ => rfl, fun s =>
    ⟨fun enough inside => ?address, fun enough outside => ?outside, fun short => ?underflow⟩⟩
  case address => rw [exec_setp_popped enough, if_neg (by omega), finish_ok]
  case outside =>
    have hexec := exec_setp_popped enough
    rw [if_pos outside] at hexec
    exact faultsWith_of_raised (u := { s with ds := s.ds.drop s.width.bytes }) hexec rfl
  case underflow =>
    obtain ⟨cs, hpop⟩ := popW_short (k := .data) short
    have hexec : exec .setp s = finish (.raised (.stackUnderflow .data) (s.setStack .data cs)) := by
      rw [exec, execSetp, hpop, bind_raised]
    exact faultsWith_of_raised (u := s.setStack .data cs) hexec rfl

/-- Settles O32: push-pointer is the Width-wide push of MemoryPointer, and the move past its opcode. -/
theorem pushPointerPushesLowBytes : Obligations.PushPointerPushesLowBytes :=
  ⟨fun _ _ => rfl, fun _ => ⟨exec_of_pushW_room rfl, faults_of_pushW_full rfl⟩⟩

/-! ## The block read -/

theorem exec_mrb_inside {s : State} (h : s.mp.toNat + s.width.bytes ≤ s.cfg.memSize) :
    exec .mrb s =
      finish ((pushBlock s.mp.toNat s.width.bytes s).bind fun _ s => .ok () (advance 1 s)) := by
  rw [exec, execMrb, checkBlock_ok h, bind_ok]

theorem exec_mrb_room {s : State} (inside : s.mp.toNat + s.width.bytes ≤ s.cfg.memSize)
    (room : s.ds.length + s.width.bytes ≤ s.cfg.dstackCap) :
    exec .mrb s = .next { s with
      ds := memBytes s.mem s.mp.toNat s.width.bytes ++ s.ds, pc := s.pc + 1 } := by
  rw [exec_mrb_inside inside, pushBlock_ok inside room]
  rfl

/-- Settles O33: the range check comes first, and the push of the block is the rest. -/
theorem readBlockPushesLowestAddressOnTop : Obligations.ReadBlockPushesLowestAddressOnTop := by
  refine ⟨fun _ _ => rfl, fun s => ⟨exec_mrb_room, fun outside => ?outside, fun inside full => ?overflow⟩⟩
  case outside =>
    have hexec : exec .mrb s = finish (.raised (.memoryFault (max s.mp.toNat s.cfg.memSize)) s) := by
      rw [exec, execMrb, checkBlock_out outside, bind_raised]
    exact faultsWith_of_raised hexec rfl
  case overflow =>
    obtain ⟨cs, hpush⟩ := pushBlock_full (width_bytes_pos s.width) inside full
    have hexec := exec_mrb_inside inside
    rw [hpush, bind_raised] at hexec
    exact faultsWith_of_raised (u := { s with ds := cs }) hexec rfl

/-! ## The string read -/

@[simp] theorem memBytes_length (m : Memory) (a n : Nat) : (memBytes m a n).length = n := by
  rw [memBytes, List.length_map, List.length_range]

/-- Where the first 0x00 is `n` bytes on, the bytes before it are pushed from the last to the first. -/
theorem exec_mrs_terminated {n : Nat} {s : State} (inside : s.mp.toNat + n < s.cfg.memSize)
    (zero : s.mem.read (s.mp.toNat + n) = 0x00) (before : ∀ i < n, s.mem.read (s.mp.toNat + i) ≠ 0x00) :
    exec .mrs s = finish ((pushAll .data (memBytes s.mem s.mp.toNat n).reverse s).bind
      fun _ s => .ok () (advance 1 s)) := by
  rw [exec, execMrs, scanString_ok (by omega) zero before, bind_ok]

/-- With no 0x00 from MemoryPointer on, the scan runs to the end of memory, or, from a MemoryPointer beyond it, does
not begin. -/
theorem exec_mrs_unterminated {s : State}
    (h : ∀ a, s.mp.toNat ≤ a → a < s.cfg.memSize → s.mem.read a ≠ 0x00) :
    exec .mrs s = finish (.raised (.memoryFault (max s.mp.toNat s.cfg.memSize)) s) := by
  have stop : s.mp.toNat + (s.cfg.memSize - s.mp.toNat) = max s.mp.toNat s.cfg.memSize := by omega
  rw [exec, execMrs, scanString_none fun i hi => h _ (by omega) (by omega), bind_raised, stop]

/-- Settles O34: the scan finds the bytes or faults, and the push of those it finds has room or overflows. -/
theorem readStringPushesUpToTerminator : Obligations.ReadStringPushesUpToTerminator := by
  refine ⟨fun _ _ => rfl, fun s =>
    ⟨fun n inside zero before => ⟨fun room => ?room, fun hn full => ?overflow⟩,
      fun h => faultsWith_of_raised (exec_mrs_unterminated h) rfl⟩⟩
  case room =>
    rw [exec_mrs_terminated inside zero before, pushAll_ok (by simpa using room), List.reverse_reverse]
    rfl
  case overflow =>
    have nonempty : (memBytes s.mem s.mp.toNat n).reverse ≠ [] := List.ne_nil_of_length_pos (by simpa using hn)
    obtain ⟨cs, hpush⟩ := pushAll_full (k := .data) (s := s) nonempty (by simpa using full)
    have hexec := exec_mrs_terminated inside zero before
    rw [hpush, bind_raised] at hexec
    exact faultsWith_of_raised (u := s.setStack .data cs) hexec rfl

/-! ## The block write -/

/-- Settles O35: the range check comes first, and the pops of the block, with the bytes they store, are the rest. -/
theorem writeBlockStoresFirstPopHighest : Obligations.WriteBlockStoresFirstPopHighest := by
  refine ⟨fun _ _ => rfl, fun s hw =>
    ⟨fun inside enough => ?stored, fun outside => faultsWith_of_raised (exec_mwb_outside outside) rfl,
      fun inside short => ?underflow⟩⟩
  case stored =>
    obtain ⟨m, hpop, hm, stored, kept⟩ := popBlock_ok hw inside enough
    refine ⟨m, by rw [exec_mwb_inside inside, hpop]; rfl, hm, fun i hi => ?_, kept⟩
    rw [stored i hi, List.getElem?_eq_getElem (by omega), Option.getD_some]
  case underflow =>
    obtain ⟨m, cs, hpop⟩ := popBlock_short inside short
    have hexec := exec_mwb_inside inside
    rw [hpop, bind_raised] at hexec
    exact faultsWith_of_raised (u := { s with mem := m, ds := cs }) hexec rfl

/-- Bytes stored from the highest address down read, by rising address, in reverse order. -/
theorem memBytes_eq_reverse_take {m : Memory} {base n : Nat} {bs : List Byte} (enough : n ≤ bs.length)
    (stored : ∀ i < n, some (m.read (base + (n - 1 - i))) = bs[i]?) : memBytes m base n = (bs.take n).reverse := by
  have hlen : (bs.take n).length = n := List.length_take_of_le enough
  refine List.ext_getElem (by simp [hlen]) fun i hi _ => ?_
  rw [memBytes_length] at hi
  have mirrored : n - 1 - (n - 1 - i) = i := by omega
  have byte := stored (n - 1 - i) (by omega)
  rw [mirrored, List.getElem?_eq_getElem (by omega), Option.some_inj] at byte
  simpa [memBytes, hlen] using byte

/-- Settles O36: the write leaves MemoryPointer, Width and room for what it popped, so the read pushes the bytes it
stored. -/
theorem writeThenReadReversesBytes : Obligations.WriteThenReadReversesBytes := by
  intro s hw inside enough within
  obtain ⟨m, hwrite, -, stored, -⟩ := (writeBlockStoresFirstPopHighest.2 s hw).1 inside enough
  have room : (s.ds.drop s.width.bytes).length + s.width.bytes ≤ s.cfg.dstackCap := by
    rw [List.length_drop]
    omega
  refine ⟨_, _, hwrite, exec_mrb_room inside room, ?_⟩
  rw [memBytes_eq_reverse_take enough stored]

end Sys2Proof.Machine
end

section
/-! Add and subtract (44_arithmetic.md R180 to R182): the Width-wide push of a sum or of a difference modulo 2^(8W).
That modulus divides no more than 2^64, so the word pushed is the remainder itself; and two operands of equal
remainders give equal words, so the high bytes of A and B are not seen. -/

namespace Sys2Proof.Machine

/-! ## The words pushed -/

theorem toNat_ofNat_of_lt_width {w : Width} {n : Nat} (h : n < 2 ^ (8 * w.bytes)) :
    (BitVec.ofNat 64 n).toNat = n := by
  have hw : 2 ^ (8 * w.bytes) ≤ 2 ^ 64 := Nat.pow_le_pow_right (by decide) (Nat.mul_le_mul_left 8 (width_bytes_le w))
  exact (BitVec.toNat_ofNat n 64).trans (Nat.mod_eq_of_lt (h.trans_le hw))

theorem addW_toNat (w : Width) (x y : Word) : (addW w x y).toNat = (x.toNat + y.toNat) % 2 ^ (8 * w.bytes) :=
  toNat_ofNat_of_lt_width (Nat.mod_lt _ (Nat.two_pow_pos _))

/-- The difference is one of integers: it may be negative, and its remainder is not. -/
theorem subW_toNat (w : Width) (x y : Word) :
    ((subW w x y).toNat : Int) = ((x.toNat : Int) - y.toNat) % ((2 ^ (8 * w.bytes) : Nat) : Int) := by
  have hpos : (0 : Int) < ((2 ^ (8 * w.bytes) : Nat) : Int) := Int.natCast_pos.2 (Nat.two_pow_pos _)
  have hnonneg := Int.emod_nonneg ((x.toNat : Int) - y.toNat) hpos.ne'
  have hlt := Int.emod_lt_of_pos ((x.toNat : Int) - y.toNat) hpos
  rw [subW, toNat_ofNat_of_lt_width (w := w) (by omega), Int.toNat_of_nonneg hnonneg]

theorem subW_lt (w : Width) (x y : Word) : (subW w x y).toNat < 2 ^ (8 * w.bytes) := by
  have hlt := Int.emod_lt_of_pos ((x.toNat : Int) - y.toNat) (Int.natCast_pos.2 (Nat.two_pow_pos (8 * w.bytes)))
  rw [← subW_toNat] at hlt
  exact Int.ofNat_lt.1 hlt

section
variable {w : Width} {x x' y y' : Word}

theorem addW_congr (hx : x'.toNat % 2 ^ (8 * w.bytes) = x.toNat % 2 ^ (8 * w.bytes))
    (hy : y'.toNat % 2 ^ (8 * w.bytes) = y.toNat % 2 ^ (8 * w.bytes)) : addW w x' y' = addW w x y := by
  refine BitVec.eq_of_toNat_eq ?_
  rw [addW_toNat, addW_toNat]
  exact Nat.ModEq.add hx hy

theorem subW_congr (hx : x'.toNat % 2 ^ (8 * w.bytes) = x.toNat % 2 ^ (8 * w.bytes))
    (hy : y'.toNat % 2 ^ (8 * w.bytes) = y.toNat % 2 ^ (8 * w.bytes)) : subW w x' y' = subW w x y := by
  refine BitVec.eq_of_toNat_eq (Int.ofNat_inj.1 ?_)
  rw [subW_toNat, subW_toNat]
  exact Int.ModEq.sub (Int.natCast_modEq_iff.2 hx) (Int.natCast_modEq_iff.2 hy)

end

/-! ## The instructions -/

theorem exec_add (s : State) : exec .add s =
    finish ((pushW (addW s.width s.regs.a s.regs.b) s).bind fun _ s => .ok () (advance 1 s)) := rfl

theorem exec_sub (s : State) : exec .sub s =
    finish ((pushW (subW s.width s.regs.a s.regs.b) s).bind fun _ s => .ok () (advance 1 s)) := rfl

/-- Settles O37: add is the Width-wide push of the sum's remainder, and the move past its opcode. -/
theorem addPushesTheSumModuloWidth : Obligations.AddPushesTheSumModuloWidth := by
  refine ⟨fun _ _ => rfl, fun s => ⟨fun room => ?_, faults_of_pushW_full (exec_add s)⟩⟩
  rw [exec_of_pushW_room (exec_add s) room, addW_toNat]

/-- Settles O38: subtract is the Width-wide push of the difference's remainder, and the move past its opcode; the
quotient says by which multiple the remainder differs from the difference. -/
theorem subPushesTheDifferenceModuloWidth : Obligations.SubPushesTheDifferenceModuloWidth := by
  refine ⟨fun _ _ => rfl, fun s => ⟨fun room =>
    ⟨(subW s.width s.regs.a s.regs.b).toNat, subW_lt _ _ _,
      ⟨((s.regs.a.toNat : Int) - s.regs.b.toNat) / 2 ^ (8 * s.width.bytes), ?multiple⟩,
      exec_of_pushW_room (exec_sub s) room⟩,
    faults_of_pushW_full (exec_sub s)⟩⟩
  case multiple =>
    rw [subW_toNat, Nat.cast_pow, Nat.cast_ofNat, Int.emod_add_ediv_mul]

/-- An instruction that pushes one and the same value with either register file does the same with either, where
there is room for the value. -/
theorem exec_pushW_otherRegs {i : Instr} {v : Word} {s t : State} {x : RegFile}
    (hs : exec i s = finish ((pushW v s).bind fun _ s => .ok () (advance 1 s)))
    (hx : exec i { s with regs := x } =
      finish ((pushW v { s with regs := x }).bind fun _ s => .ok () (advance 1 s)))
    (h : exec i s = .next t) (hnf : t.status ≠ .faulted) :
    exec i { s with regs := x } = .next { t with regs := x } := by
  by_cases room : s.ds.length + s.width.bytes ≤ s.cfg.dstackCap
  · obtain rfl := Host.Outcome.next.inj (h.symm.trans (exec_of_pushW_room hs room))
    exact exec_of_pushW_room hx room
  · obtain ⟨u, hu, faulted, -⟩ := faults_of_pushW_full hs (by omega)
    obtain rfl := Host.Outcome.next.inj (h.symm.trans hu)
    exact absurd faulted hnf

/-- Settles O39: the value pushed is the same for both register files, and the push reads no register. -/
theorem arithmeticIgnoresHighRegisterBytes : Obligations.ArithmeticIgnoresHighRegisterBytes := by
  intro i hi s t x ha hb h hnf
  obtain rfl | rfl : i = .add ∨ i = .sub := by simpa using hi
  · refine exec_pushW_otherRegs (exec_add s) ?_ h hnf
    rw [exec_add, addW_congr ha hb]
  · refine exec_pushW_otherRegs (exec_sub s) ?_ h hnf
    rw [exec_sub, subW_congr ha hb]

end Sys2Proof.Machine
end

section
/-! Control flow (45_control_flow.md R185 to R193): what jump, call, return and a taken conditional jump share, which
is a Width-wide pop and a transfer to the value popped, or to the byte after it; and the halt. -/

namespace Sys2Proof.Machine

/-! ## A Width-wide pop, then a transfer -/

section
variable {i : Instr} {k : StackId} {s u : State}

/-- A transfer to the value popped, moved on by `n` bytes, that stays below the bound of R186. The pop is made in the
state `u` in which the primitives before it leave the instruction. -/
theorem exec_of_popW_goto {n : Nat} (h : exec i s = finish ((popW k u).bind fun v t => goto (v.toNat + n) t))
    (enough : u.width.bytes ≤ (u.stack k).length)
    (near : littleEndian ((u.stack k).take u.width.bytes) + n < 2 ^ 31) :
    exec i s = .next { u.setStack k ((u.stack k).drop u.width.bytes) with
      pc := littleEndian ((u.stack k).take u.width.bytes) + n } := by
  rw [h, popW_ok enough, bind_ok, popped_toNat, goto_ok near, finish_ok]

theorem faultsWith_of_popW_goto_far {n : Nat}
    (h : exec i s = finish ((popW k u).bind fun v t => goto (v.toNat + n) t)) (counted : u.icount = s.icount)
    (enough : u.width.bytes ≤ (u.stack k).length)
    (far : 2 ^ 31 ≤ littleEndian ((u.stack k).take u.width.bytes) + n) :
    FaultsWith i s (.targetOutOfRange (littleEndian ((u.stack k).take u.width.bytes) + n)) u.out := by
  rw [popW_ok enough, bind_ok, popped_toNat, goto_far far] at h
  simpa using faultsWith_of_raised h (by simpa using counted)

/-- Whatever follows a pop that finds too few bytes does not happen. -/
theorem faultsWith_of_popW_short {q : Word → State → Res Unit} (h : exec i s = finish ((popW k u).bind q))
    (counted : u.icount = s.icount) (short : (u.stack k).length < u.width.bytes) :
    FaultsWith i s (.stackUnderflow k) u.out := by
  obtain ⟨bs, hpop⟩ := popW_short short
  rw [hpop, bind_raised] at h
  simpa using faultsWith_of_raised h (by simpa using counted)

end

/-! ## Jump and return -/

theorem exec_jmp (s : State) : exec .jmp s = finish ((popW .data s).bind fun t s => goto (t.toNat + 0) s) := rfl

/-- Settles O41: jump is the transfer to the value popped from the data stack. -/
theorem jumpGoesToThePoppedTarget : Obligations.JumpGoesToThePoppedTarget :=
  ⟨fun _ _ => rfl, fun s => ⟨exec_of_popW_goto (exec_jmp s), faultsWith_of_popW_goto_far (exec_jmp s) rfl,
    faultsWith_of_popW_short (exec_jmp s) rfl⟩⟩

theorem exec_ret (s : State) : exec .ret s = finish ((popW .call s).bind fun v s => goto (v.toNat + 1) s) := rfl

/-- Settles O44: return is the transfer to the byte after the value popped from the call stack. -/
theorem returnGoesPastThePoppedValue : Obligations.ReturnGoesPastThePoppedValue :=
  ⟨fun _ _ => rfl, fun s => ⟨exec_of_popW_goto (exec_ret s), faultsWith_of_popW_goto_far (exec_ret s) rfl,
    faultsWith_of_popW_short (exec_ret s) rfl⟩⟩

/-! ## The conditional jumps -/

theorem jumpIf_true (s : State) : jumpIf true s = (popW .data s).bind fun t s => goto (t.toNat + 0) s := rfl

/-- The target is popped also where the jump falls through. -/
theorem finish_jumpIf_false {s : State} (enough : s.width.bytes ≤ s.ds.length) :
    finish (jumpIf false s) = .next { s with ds := s.ds.drop s.width.bytes, pc := s.pc + 1 } := by
  rw [jumpIf, popW_ok (k := .data) enough]
  rfl

theorem exec_jng_taken (s : State) :
    ∃ taken, exec .jng s = finish (jumpIf taken s) ∧ (taken = true ↔ ¬ s.regs.b.toNat < s.regs.a.toNat) :=
  ⟨!aGreaterThanB s, rfl, by simp [aGreaterThanB]⟩

theorem exec_jne_taken (s : State) :
    ∃ taken, exec .jne s = finish (jumpIf taken s) ∧ (taken = true ↔ s.regs.a.toNat ≠ s.regs.b.toNat) :=
  ⟨!aEqualsB s, rfl, by simp [aEqualsB, BitVec.toNat_inj]⟩

/-- Settles O40: a conditional jump that is taken is the transfer to the popped target; too few bytes for the target
are found before the comparison is used. -/
theorem conditionalJumpsCompareWholeRegisters : Obligations.ConditionalJumpsCompareWholeRegisters := by
  refine ⟨fun _ _ => rfl, fun _ _ => rfl, fun s i falls hi => ?_⟩
  obtain ⟨taken, hexec, htaken⟩ : ∃ taken, exec i s = finish (jumpIf taken s) ∧ (taken = true ↔ ¬ falls) := by
    rcases hi with ⟨rfl, hfalls⟩ | ⟨rfl, hfalls⟩
    · simpa only [hfalls] using exec_jng_taken s
    · simpa only [hfalls] using exec_jne_taken s
  have goes (h : ¬ falls) : exec i s = finish ((popW .data s).bind fun t s => goto (t.toNat + 0) s) := by
    rw [hexec, htaken.mpr h, jumpIf_true]
  refine ⟨fun enough h => ?fallsThrough, fun enough h => exec_of_popW_goto (goes h) enough,
    fun enough h => faultsWith_of_popW_goto_far (goes h) rfl enough, faultsWith_of_popW_short hexec rfl⟩
  case fallsThrough =>
    obtain rfl : taken = false := Bool.eq_false_iff.mpr fun ht => htaken.mp ht h
    rw [hexec, finish_jumpIf_false enough]

/-! ## Call -/

/-- The state in which call pops its target: the low byte of its own PC is on the call stack. -/
def State.called (s : State) : State :=
  { s with cs := BitVec.ofNat 8 (s.pc % 256) :: s.cs }

theorem exec_call_room {s : State} (room : s.cs.length < s.cfg.cstackCap) :
    exec .call s = finish ((popW .data s.called).bind fun t s => goto (t.toNat + 0) s) := by
  have lowByte : BitVec.ofNat 8 s.pc = BitVec.ofNat 8 (s.pc % 256) := BitVec.eq_of_toNat_eq (by simp)
  rw [exec, execCall, push_ok (k := .call) room, lowByte]
  rfl

theorem faults_call_full {s : State} (full : s.cfg.cstackCap ≤ s.cs.length) :
    Faults .call s (.stackOverflow .call) := by
  have hexec : exec .call s = finish (.raised (.stackOverflow .call) s) := by
    rw [exec, execCall, push_full (k := .call) full, bind_raised]
  exact faultsWith_of_raised hexec rfl

/-- Settles O42: the push on the call stack comes first, and after it call is a jump. -/
theorem callPushesOneByteOfItsPc : Obligations.CallPushesOneByteOfItsPc :=
  ⟨fun _ _ => rfl, fun s => ⟨faults_call_full,
    fun room => faultsWith_of_popW_short (u := s.called) (exec_call_room room) rfl,
    fun room => faultsWith_of_popW_goto_far (u := s.called) (exec_call_room room) rfl,
    fun room => exec_of_popW_goto (u := s.called) (exec_call_room room)⟩⟩

/-! ## Halt -/

theorem exec_halt (s : State) : exec .halt s = .next { s with status := .halted, pc := s.prog.length } := rfl

/-- Settles O43: the model moves the PC to the end of the program, and the next turn finds the run over. -/
theorem haltEndsTheRun : Obligations.HaltEndsTheRun :=
  ⟨fun _ _ => rfl, decodesTo_escape 0x0E,
    fun s => ⟨s.prog.length, exec_halt s, noStepAfterTheRunEnds _ (.inl rfl)⟩⟩

end Sys2Proof.Machine
end

section
/-! The decimal rendering (46_convert_log.md R202). A decimal text is the digit of a value below ten, or the decimal
text of the quotient by ten and the digit of the remainder. That is the recursion of `decDigits`, so `dec` is the one
text. -/

namespace Sys2Proof.Machine

/-! ## One digit -/

theorem digitByte_toNat {d : Nat} (h : d < 10) : (digitByte d).toNat = 0x30 + d := by
  rw [digitByte, BitVec.toNat_ofNat, Nat.mod_eq_of_lt (by omega)]

theorem eq_digitByte_iff {b : Byte} {d : Nat} (h : d < 10) : b = digitByte d ↔ b.toNat = 0x30 + d := by
  rw [← digitByte_toNat h, BitVec.toNat_inj]

/-! ## Texts of digits -/

theorem allDigits_concat {init : List Byte} {b : Byte} :
    allDigits (init ++ [b]) ↔ allDigits init ∧ 0x30 ≤ b.toNat ∧ b.toNat ≤ 0x39 := by
  simp only [allDigits, List.forall_mem_append, List.forall_mem_singleton]

theorem decimalValue_concat (init : List Byte) (b : Byte) :
    decimalValue (init ++ [b]) = 10 * decimalValue init + (b.toNat - 0x30) := by
  simp [decimalValue]

/-- Only a leading "0" can make the value 0. -/
theorem decimalValue_pos {text : List Byte} (nonempty : text ≠ []) (digits : allDigits text)
    (noZero : text.head? ≠ some 0x30) : 0 < decimalValue text := by
  induction text using List.reverseRecOn with
  | nil => exact absurd rfl nonempty
  | append_singleton init b ih =>
    obtain ⟨initDigits, hb, -⟩ := allDigits_concat.mp digits
    rw [decimalValue_concat]
    by_cases hinit : init = []
    · have hne : b.toNat ≠ 0x30 := fun h => noZero (by simp [hinit, BitVec.eq_of_toNat_eq (y := 0x30#8) h])
      omega
    · rw [List.head?_append_of_ne_nil _ hinit] at noZero
      have := ih hinit initDigits noZero
      omega

/-! ## Decimal texts -/

/-- A positive value leaves no room for a leading "0". -/
theorem isDecimal_iff_of_pos {text : List Byte} {v : Nat} (hv : 0 < v) : IsDecimal text v ↔
    text ≠ [] ∧ allDigits text ∧ decimalValue text = v ∧ text.head? ≠ some 0x30 := by
  refine and_congr_right fun _ => and_congr_right fun _ => and_congr_right fun value => ⟨fun only h => ?_,
    fun noZero h => absurd h noZero⟩
  rw [only h] at value
  exact hv.ne value

theorem isDecimal_singleton {b : Byte} {v : Nat} : IsDecimal [b] v ↔ v < 10 ∧ b = digitByte v := by
  have hvalue : decimalValue [b] = b.toNat - 0x30 := by simp [decimalValue]
  have hdigits : allDigits [b] ↔ 0x30 ≤ b.toNat ∧ b.toNat ≤ 0x39 := List.forall_mem_singleton
  simp only [IsDecimal, hvalue, hdigits]
  constructor
  · rintro ⟨-, ⟨hle, hge⟩, rfl, -⟩
    exact ⟨by omega, (eq_digitByte_iff (by omega)).mpr (by omega)⟩
  · rintro ⟨hv, hb⟩
    rw [eq_digitByte_iff hv] at hb
    exact ⟨by simp, by omega, by omega, by simp⟩

/-- A decimal text of two digits or more is that of the quotient by ten, and the digit of the remainder. -/
theorem isDecimal_concat {init : List Byte} {b : Byte} {v : Nat} (hinit : init ≠ []) :
    IsDecimal (init ++ [b]) v ↔ 10 ≤ v ∧ IsDecimal init (v / 10) ∧ b = digitByte (v % 10) := by
  have hlong : init ++ [b] ≠ [0x30] := fun h => hinit (List.append_inj_left' h rfl)
  rw [eq_digitByte_iff (Nat.mod_lt v (by decide))]
  constructor
  · rintro ⟨-, digits, value, zero⟩
    obtain ⟨initDigits, hle, hge⟩ := allDigits_concat.mp digits
    rw [List.head?_append_of_ne_nil _ hinit] at zero
    have noZero : init.head? ≠ some 0x30 := fun h => hlong (zero h)
    have hpos := decimalValue_pos hinit initDigits noZero
    rw [decimalValue_concat] at value
    exact ⟨by omega, (isDecimal_iff_of_pos (by omega)).mpr ⟨hinit, initDigits, by omega, noZero⟩, by omega⟩
  · rintro ⟨hv, hdec, hb⟩
    obtain ⟨-, initDigits, value, noZero⟩ := (isDecimal_iff_of_pos (by omega)).mp hdec
    refine ⟨by simp, allDigits_concat.mpr ⟨initDigits, by omega, by omega⟩, ?_, ?_⟩
    · rw [decimalValue_concat]
      omega
    · rw [List.head?_append_of_ne_nil _ hinit]
      exact fun h => absurd h noZero

/-- The two ways to be a decimal text, by the number of digits. -/
theorem isDecimal_iff {text : List Byte} {v : Nat} : IsDecimal text v ↔ (v < 10 ∧ text = [digitByte v]) ∨
    (10 ≤ v ∧ ∃ init, IsDecimal init (v / 10) ∧ text = init ++ [digitByte (v % 10)]) := by
  constructor
  · intro h
    obtain rfl | ⟨init, b, rfl⟩ := text.eq_nil_or_concat'
    · exact absurd rfl h.1
    · by_cases hinit : init = []
      · subst hinit
        obtain ⟨hv, rfl⟩ := isDecimal_singleton.mp h
        exact .inl ⟨hv, rfl⟩
      · obtain ⟨hv, hdec, rfl⟩ := (isDecimal_concat hinit).mp h
        exact .inr ⟨hv, init, hdec, rfl⟩
  · rintro (⟨hv, rfl⟩ | ⟨hv, init, hdec, rfl⟩)
    · exact isDecimal_singleton.mpr ⟨hv, rfl⟩
    · exact (isDecimal_concat hdec.1).mpr ⟨hv, hdec, rfl⟩

/-! ## The model's rendering -/

theorem isDecimal_iff_eq_decDigits {n v : Nat} {text : List Byte} (hv : v < 10 ^ (n + 1)) :
    IsDecimal text v ↔ text = decDigits (n + 1) v := by
  induction n generalizing v text with
  | zero =>
    have small : v < 10 := hv
    rw [isDecimal_iff, decDigits]
    simp [small]
  | succ n ih =>
    have hquot : v / 10 < 10 ^ (n + 1) := Nat.div_lt_of_lt_mul (by rwa [← pow_succ'])
    rw [isDecimal_iff, decDigits]
    split
    case isTrue small => simp [small]
    case isFalse large => simp [large, Nat.le_of_not_lt large, ih hquot]

theorem decDigits_length_le (n v : Nat) : (decDigits n v).length ≤ n := by
  induction n generalizing v with
  | zero => exact le_rfl
  | succ n ih =>
    rw [decDigits]
    split
    · simp
    · simpa using ih (v / 10)

/-- `dec v` is the decimal text of a 64-bit `v`, and there is no other: 2^64 is below 10^20. -/
theorem isDecimal_iff_eq_dec {v : Nat} {text : List Byte} (hv : v < 2 ^ 64) : IsDecimal text v ↔ text = dec v :=
  isDecimal_iff_eq_decDigits (n := 19) (hv.trans (by norm_num))

/-- Settles O46: the one text is the model's own rendering, which has at most the 20 digits of its fuel. -/
theorem decimalTextIsUnique : Obligations.DecimalTextIsUnique := fun v hv =>
  ⟨dec v, ⟨(isDecimal_iff_eq_dec hv).mpr rfl, decDigits_length_le 20 v⟩,
    fun _ ⟨h, _⟩ => (isDecimal_iff_eq_dec hv).mp h⟩

end Sys2Proof.Machine
end

section
/-! Convert and debug-log (46_convert_log.md R200, R201): a Width-wide pop and then the push of a decimal text, last
digit first; and the loop that emits up to a 0x00. -/

namespace Sys2Proof.Machine

/-! ## Convert -/

theorem littleEndian_take_lt (w : Width) (bs : List Byte) : littleEndian (bs.take w.bytes) < 2 ^ 64 := by
  rw [← popped_toNat]
  exact BitVec.isLt _

/-- With enough bytes for the value, what is left of convert is the push of its decimal text. -/
theorem exec_conv_popped {s : State} {text : List Byte} (enough : s.width.bytes ≤ s.ds.length)
    (hdec : IsDecimal text (littleEndian (s.ds.take s.width.bytes))) :
    exec .conv s = finish ((pushAll .data text.reverse { s with ds := s.ds.drop s.width.bytes }).bind
      fun _ s => .ok () (advance 1 s)) := by
  obtain rfl := (isDecimal_iff_eq_dec (littleEndian_take_lt _ _)).mp hdec
  rw [exec, execConv, popW_ok (k := .data) enough, bind_ok, stack_data, popped_toNat]
  rfl

/-- Settles O47: the text is the one that the model renders, and its push has room or overflows. -/
theorem convertPushesTheDecimalText : Obligations.ConvertPushesTheDecimalText := by
  refine ⟨fun _ _ => rfl, fun s => ⟨fun enough text hdec => ⟨fun room => ?room, fun full => ?overflow⟩,
    faultsWith_of_popW_short (i := .conv) (k := .data) rfl rfl⟩⟩
  case room =>
    rw [exec_conv_popped enough hdec, pushAll_ok (by simpa using room), List.reverse_reverse]
    rfl
  case overflow =>
    obtain ⟨cs, hpush⟩ := pushAll_full (k := .data) (s := { s with ds := s.ds.drop s.width.bytes })
      (List.reverse_ne_nil_iff.mpr hdec.1) (by simpa using full)
    have hexec := exec_conv_popped enough hdec
    rw [hpush, bind_raised] at hexec
    exact faultsWith_of_raised (u := { s with ds := cs }) hexec rfl

/-! ## Debug-log -/

theorem exec_log (s : State) :
    exec .log s = finish ((logLoop s.ds.length s).bind fun _ s => .ok () (advance 1 s)) := rfl

/-- Settles O48: the loop ends at the first 0x00, or underflows having emitted the whole data stack. -/
theorem logEmitsUpToTheTerminator : Obligations.LogEmitsUpToTheTerminator := by
  refine ⟨fun _ _ => rfl, fun s => ⟨fun text rest hds above => ?terminated, fun noZero => ?underflow⟩⟩
  case terminated =>
    have reached : text.length < s.ds.length := by simp [hds]
    rw [exec_log, logLoop_ok above hds reached]
    rfl
  case underflow =>
    have hexec := exec_log s
    rw [logLoop_short noZero, bind_raised] at hexec
    exact faultsWith_of_raised (u := { s with ds := [], out := s.out ++ s.ds }) hexec rfl

end Sys2Proof.Machine
end

section
/-! The start of a run: the start state (70_reset_and_hazards.md R240), and the program file that gives it its body
(R243 to R246). -/

namespace Sys2Proof.Machine

/-- Settles O1: a start state has the tabulated fields by definition, and its empty memory lists no address. -/
theorem startStateIsAsTabulated : Obligations.StartStateIsAsTabulated := by
  refine ⟨fun cfg prog => ⟨_, rfl, rfl, fun r => ?register, rfl, rfl, rfl, rfl, rfl, rfl, rfl, rfl,
    fun _ => rfl, rfl⟩, rfl, rfl⟩
  case register => cases r <;> rfl

/-- The body of a program file is what stands after its header. -/
theorem loadFile_eq_some_iff {file body : List Byte} : loadFile file = some body ↔ file = magicHeader ++ body := by
  constructor
  · intro h
    obtain ⟨header, rfl⟩ : file.take 4 = magicHeader ∧ file.drop 4 = body := by simpa [loadFile] using h
    rw [← header, List.take_append_drop]
  · rintro rfl
    rfl

theorem startFile_eq_some_iff {cfg : Params} {file : List Byte} {s : State} :
    startFile cfg file = some s ↔ ∃ body, file = magicHeader ++ body ∧ State.start cfg body = s := by
  simp [startFile, loadFile_eq_some_iff]

/-- Settles O51: the program of the state that a file starts is the body after the header. -/
theorem hostStartsExactlyHeaderedFiles : Obligations.HostStartsExactlyHeaderedFiles := by
  refine ⟨fun cfg body => startFile_eq_some_iff.mpr ⟨body, rfl, rfl⟩, fun cfg file s h => ?_, rfl, rfl⟩
  obtain ⟨body, rfl, rfl⟩ := startFile_eq_some_iff.mp h
  rfl

end Sys2Proof.Machine
end

section
/-! The store-registers (42_registers.md R150 and its family). -/

namespace Sys2Proof.Machine

/-- The even opcodes 0x20 to 0x2E (30_encoding.md R94). -/
theorem decodesTo_storeInstr (r : Reg) :
    DecodesTo .normal (BitVec.ofNat 8 (0x20 + 2 * regIndex r)) (storeInstr r) := by
  cases r
  all_goals exact fun _ _ => rfl

/-- Settles O29: a store-register is a Width-wide pop and the write of the value popped, as a word, to the whole of its
register. -/
theorem storeRegisterPopsAWideValue : Obligations.StoreRegisterPopsAWideValue := by
  refine fun r => ⟨decodesTo_storeInstr r, fun s => ⟨fun enough => ?stored,
    faultsWith_of_popW_short (k := .data) (exec_storeInstr r s) rfl⟩⟩
  case stored =>
    rw [exec_storeInstr, storeReg, popW_ok (k := .data) enough, bind_ok, finish_ok, stack_data, popped_eq]
    rfl

end Sys2Proof.Machine
end

section
/-! A call and the return after it at Width 1 (70_reset_and_hazards.md R249, R250). -/

namespace Sys2Proof.Machine

/-- After its push on the call stack, call is a jump, which leaves the call stack as it is. -/
theorem exec_call_cs {s t : State} (h : exec .call s = .next t) (hnf : t.status ≠ .faulted) :
    t.cs = BitVec.ofNat 8 (s.pc % 256) :: s.cs := by
  by_cases room : s.cs.length < s.cfg.cstackCap
  · rw [exec_call_room room, ← exec_jmp] at h
    exact (exec_keeps State.cs (fun _ _ => Change.cs_eq (by simp) (by simp)) takeFault_cs h :)
  · obtain ⟨u, hu, faulted, -⟩ := faults_call_full (Nat.le_of_not_lt room)
    obtain rfl := Host.Outcome.next.inj (h.symm.trans hu)
    exact absurd faulted hnf

/-- At Width 1 return takes the one byte on top, whose successor is below the bound of every transfer. -/
theorem exec_ret_width_one {s : State} {b : Byte} {rest : List Byte} (hw : s.width = .w1) (hcs : s.cs = b :: rest) :
    exec .ret s = .next { s with cs := rest, pc := b.toNat + 1 } := by
  have popped : littleEndian (s.cs.take s.width.bytes) = b.toNat := by simp [hw, hcs, Width.bytes, littleEndian]
  have left : s.cs.drop s.width.bytes = rest := by simp [hw, hcs, Width.bytes]
  have enough : s.width.bytes ≤ s.cs.length := by simp [hw, hcs, Width.bytes]
  have hret := (returnGoesPastThePoppedValue.2 s).1 enough (by omega)
  rwa [popped, left] at hret

/-- Settles O45: the byte on top of the call stack is the call's offset modulo 256. -/
theorem returnAtWidthOneResumesAfterTheCall : Obligations.ReturnAtWidthOneResumesAfterTheCall := by
  intro s t u hcall hnf hcs hw
  have hret : exec .ret u = .next { u with cs := s.cs, pc := s.pc % 256 + 1 } := by
    simpa using exec_ret_width_one hw (hcs.trans (exec_call_cs hcall hnf))
  refine ⟨hret, fun below => ?_⟩
  rwa [Nat.mod_eq_of_lt below] at hret

end Sys2Proof.Machine
end

section
/-! The record of a fault (60_exceptions.md R210), and which instructions raise which kind (R211 to R217). -/

namespace Sys2Proof.Machine

/-! ## The record -/

/-- An instruction performed outside Faulted that ends in Faulted has taken a fault, at the count it found. -/
theorem exec_fault_record {i : Instr} {s t : State} (h : exec i s = .next t) (hs : s.status ≠ .faulted)
    (ht : t.status = .faulted) : ∃ c, t.fault = some { cause := c, position := s.icount } := by
  obtain ⟨u, hr, rfl | ⟨c, rfl⟩⟩ := exec_cases h
  · exact absurd ht (reaches_induct (fun _ _ => Change.status_ne_faulted) hs hr)
  · exact ⟨c, by rw [takeFault_fault, reaches_keeps State.icount (fun _ _ => Change.icount_eq) hr]⟩

/-- Settles O18: a step that faults has counted a byte and then performed an instruction that faults, and the next turn
finds the run over. -/
theorem faultRecordsItsStepAndEndsTheRun : Obligations.FaultRecordsItsStepAndEndsTheRun := by
  intro s t h ht
  refine ⟨?_, noStepAfterTheRunEnds t (.inr ht)⟩
  obtain ⟨running, rfl | ⟨i, hi⟩⟩ := step_cases h
  · cases ht
  · exact exec_fault_record hi (by simp [running]) ht

/-! ## What the primitives of an instruction can raise -/

/-- The instructions that can raise a fault of the kind of this cause, as the spec lists them (R212 to R217). -/
@[simp] def Cause.RaisedBy : Cause → Instr → Prop
  | .invalidOpcode b, i => i = .invalid b
  | .stackOverflow .data, i => (∃ lit, i = .pushl lit) ∨ (∃ b, i = .escLit b) ∨ (∃ r, i = loadInstr r) ∨
      i ∈ [Instr.conv, .add, .sub, .pushp, .mrb, .mrs, .escZero]
  | .stackOverflow .call, i => i = .call
  | .stackUnderflow .data, i => (∃ r, i = storeInstr r) ∨
      i ∈ [Instr.pop, .conv, .jng, .jne, .jmp, .call, .setp, .mwb, .log]
  | .stackUnderflow .call, i => i = .ret
  | .memoryFault _, i => i ∈ [Instr.setp, .mrb, .mrs, .mwb]
  | .truncatedLiteral _, i => ∃ lit, i = .pushl lit
  | .targetOutOfRange _, i => i ∈ [Instr.jng, .jne, .jmp, .call, .ret]

/-- Primitives go on with no fault recorded, or raise a cause that is listed for `i`. -/
def Res.Listed {α : Type} (i : Instr) : Res α → Prop
  | .ok _ s => s.fault = none
  | .raised c _ => c.RaisedBy i

section
variable {α β : Type} {i : Instr} {s : State} {k : StackId}

theorem listed_bind {r : Res α} {q : α → State → Res β} (hr : r.Listed i)
    (hq : ∀ x s, s.fault = none → (q x s).Listed i) : (r.bind q).Listed i := by
  cases r with
  | ok x s => exact hq x s hr
  | raised c s => exact hr

theorem listed_bind_advance {r : Res α} (n : Nat) (hr : r.Listed i) :
    (r.bind fun _ s => .ok () (advance n s)).Listed i :=
  listed_bind hr fun _ _ hs => hs

theorem push_listed (b : Byte) (hi : (Cause.stackOverflow k).RaisedBy i) (hs : s.fault = none) :
    (push k b s).Listed i := by
  rcases push_cases k b s with ⟨hp, -⟩ | hp <;> rw [hp]
  · exact (setStack_fault s k _).trans hs
  · exact hi

theorem pop_listed (hi : (Cause.stackUnderflow k).RaisedBy i) (hs : s.fault = none) : (pop k s).Listed i := by
  rcases pop_cases k s with ⟨b, rest, -, hp⟩ | hp <;> rw [hp]
  · exact (setStack_fault s k rest).trans hs
  · exact hi

theorem pushAll_listed (bs : List Byte) (hi : (Cause.stackOverflow k).RaisedBy i) (hs : s.fault = none) :
    (pushAll k bs s).Listed i := by
  rcases pushAll_cases k bs s with ⟨hp, -⟩ | ⟨cs, hp⟩ <;> rw [hp]
  · exact (setStack_fault s k _).trans hs
  · exact hi

theorem pushW_listed (v : Word) (hi : (Cause.stackOverflow .data).RaisedBy i) (hs : s.fault = none) :
    (pushW v s).Listed i :=
  pushAll_listed _ hi hs

theorem popW_listed (hi : (Cause.stackUnderflow k).RaisedBy i) (hs : s.fault = none) : (popW k s).Listed i := by
  rcases popW_cases k s with ⟨hp, -⟩ | ⟨cs, hp⟩ <;> rw [hp]
  · exact (setStack_fault s k _).trans hs
  · exact hi

theorem goto_listed (t : Nat) (hi : (Cause.targetOutOfRange t).RaisedBy i) (hs : s.fault = none) :
    (goto t s).Listed i := by
  rcases goto_cases t s with hg | hg <;> rw [hg]
  · exact hs
  · exact hi

theorem jumpIf_listed (taken : Bool) (hpop : (Cause.stackUnderflow .data).RaisedBy i)
    (hgoto : ∀ t, (Cause.targetOutOfRange t).RaisedBy i) (hs : s.fault = none) : (jumpIf taken s).Listed i := by
  refine listed_bind (popW_listed hpop hs) fun t s hs => ?_
  split
  · exact goto_listed _ (hgoto _) hs
  · exact hs

theorem memRead_listed (a : Nat) (hi : (Cause.memoryFault a).RaisedBy i) (hs : s.fault = none) :
    (memRead a s).Listed i := by
  unfold memRead
  split
  · exact hi
  · exact hs

theorem memWrite_listed (a : Nat) (b : Byte) (hi : (Cause.memoryFault a).RaisedBy i) (hs : s.fault = none) :
    (memWrite a b s).Listed i := by
  unfold memWrite
  split
  · exact hi
  · exact hs

theorem checkBlock_listed (n : Nat) (hi : ∀ a, (Cause.memoryFault a).RaisedBy i) (hs : s.fault = none) :
    (checkBlock n s).Listed i := by
  rcases checkBlock_cases n s with ⟨hc, -⟩ | hc <;> rw [hc]
  · exact hs
  · exact hi (max s.mp.toNat s.cfg.memSize)

theorem scanString_listed (fuel q : Nat) (hi : ∀ a, (Cause.memoryFault a).RaisedBy i) (hs : s.fault = none) :
    (scanString fuel q s).Listed i := by
  rcases scanString_frame (fuel := fuel) (q := q) (s := s) with ⟨bs, h⟩ | ⟨a, h⟩ <;> rw [h]
  · exact hs
  · exact hi a

theorem pushBlock_listed (base n : Nat) (hs : s.fault = none) : (pushBlock base n s).Listed .mrb := by
  induction n generalizing s with
  | zero => exact hs
  | succ n ih =>
    exact listed_bind (memRead_listed _ (by simp) hs) fun b _ hs =>
      listed_bind (push_listed b (by simp) hs) fun _ _ hs => ih hs

theorem popBlock_listed (base n : Nat) (hs : s.fault = none) : (popBlock base n s).Listed .mwb := by
  induction n generalizing s with
  | zero => exact hs
  | succ n ih =>
    exact listed_bind (pop_listed (by simp) hs) fun b _ hs =>
      listed_bind (memWrite_listed _ b (by simp) hs) fun _ _ hs => ih hs

theorem logLoop_listed (n : Nat) (hs : s.fault = none) : (logLoop n s).Listed .log := by
  obtain ⟨cs, bs, -, h | h⟩ := logLoop_frame (n := n) (s := s) rfl <;> rw [h]
  · exact hs
  · simp [Res.Listed]

/-! ## What an instruction can raise -/

/-- Instruction `i` from `s` goes on, or takes a fault that is listed for it. -/
def FaultsAreListed (i : Instr) (s : State) : Prop :=
  ∃ r : Res Unit, exec i s = finish r ∧ r.Listed i

theorem faultsAreListed_of_next {t : State} (h : exec i s = .next t) (ht : t.fault = none) : FaultsAreListed i s :=
  ⟨.ok () t, h, ht⟩

theorem storeInstr_faultsAreListed (r : Reg) (hs : s.fault = none) : FaultsAreListed (storeInstr r) s :=
  ⟨_, exec_storeInstr r s, listed_bind (popW_listed (.inl ⟨r, rfl⟩) hs) fun _ _ hs => hs⟩

theorem loadInstr_faultsAreListed (r : Reg) (hs : s.fault = none) : FaultsAreListed (loadInstr r) s :=
  ⟨_, exec_loadInstr r s, listed_bind_advance 1 (pushW_listed _ (.inr (.inr (.inl ⟨r, rfl⟩))) hs)⟩

theorem exec_faultsAreListed (i : Instr) (hs : s.fault = none) : FaultsAreListed i s := by
  cases i with
  | esc | escExit | nop05 | nop0A | nop0B | nop11 | nop13 | nop1F | w1 | w2 | w4 | w8 | halt =>
    exact faultsAreListed_of_next rfl hs
  | invalid b => exact ⟨.raised (.invalidOpcode b) s, rfl, rfl⟩
  | escZero | escLit => exact ⟨_, rfl, listed_bind_advance 1 (push_listed _ (by simp) hs)⟩
  | pop => exact ⟨_, rfl, listed_bind_advance 1 (pop_listed (by simp) hs)⟩
  | pushl lit =>
    refine ⟨_, rfl, ?_⟩
    split
    · exact ⟨lit, rfl⟩
    · exact listed_bind (pushAll_listed lit (by simp) hs) fun _ _ hs => hs
  | conv =>
    exact ⟨_, rfl, listed_bind (popW_listed (by simp) hs) fun _ _ hs =>
      listed_bind_advance 1 (pushAll_listed _ (by simp) hs)⟩
  | add | sub | pushp => exact ⟨_, rfl, listed_bind_advance 1 (pushW_listed _ (by simp) hs)⟩
  | jng | jne => exact ⟨_, rfl, jumpIf_listed _ (by simp) (by simp) hs⟩
  | jmp | ret => exact ⟨_, rfl, listed_bind (popW_listed (by simp) hs) fun _ _ => goto_listed _ (by simp)⟩
  | call =>
    exact ⟨_, rfl, listed_bind (push_listed _ (by simp) hs) fun _ _ hs =>
      listed_bind (popW_listed (by simp) hs) fun _ _ => goto_listed _ (by simp)⟩
  | setp =>
    refine ⟨_, rfl, listed_bind (popW_listed (by simp) hs) fun a s hs => ?_⟩
    split
    · simp [Res.Listed]
    · exact hs
  | mrb =>
    exact ⟨_, rfl, listed_bind (checkBlock_listed _ (by simp) hs) fun _ _ hs =>
      listed_bind_advance 1 (pushBlock_listed _ _ hs)⟩
  | mrs =>
    exact ⟨_, rfl, listed_bind (scanString_listed _ _ (by simp) hs) fun _ _ hs =>
      listed_bind_advance 1 (pushAll_listed _ (by simp) hs)⟩
  | mwb =>
    exact ⟨_, rfl, listed_bind (checkBlock_listed _ (by simp) hs) fun _ _ hs =>
      listed_bind_advance 1 (popBlock_listed _ _ hs)⟩
  | log => exact ⟨_, rfl, listed_bind_advance 1 (logLoop_listed _ hs)⟩
  | stA => exact storeInstr_faultsAreListed .a hs
  | stB => exact storeInstr_faultsAreListed .b hs
  | stC => exact storeInstr_faultsAreListed .c hs
  | stD => exact storeInstr_faultsAreListed .d hs
  | stE => exact storeInstr_faultsAreListed .e hs
  | stF => exact storeInstr_faultsAreListed .f hs
  | stG => exact storeInstr_faultsAreListed .g hs
  | stH => exact storeInstr_faultsAreListed .h hs
  | ldA => exact loadInstr_faultsAreListed .a hs
  | ldB => exact loadInstr_faultsAreListed .b hs
  | ldC => exact loadInstr_faultsAreListed .c hs
  | ldD => exact loadInstr_faultsAreListed .d hs
  | ldE => exact loadInstr_faultsAreListed .e hs
  | ldF => exact loadInstr_faultsAreListed .f hs
  | ldG => exact loadInstr_faultsAreListed .g hs
  | ldH => exact loadInstr_faultsAreListed .h hs

/-- An instruction raises no fault but those listed for it. -/
theorem raisedBy_of_canRaise {p : Cause → Prop} (h : CanRaise i p) : ∃ c, p c ∧ c.RaisedBy i := by
  obtain ⟨s, t, record, -, hs, hexec, hrec, hp⟩ := h
  obtain ⟨r, hr, hlisted⟩ := exec_faultsAreListed i hs
  rcases finish_eq_next.mp (hr ▸ hexec) with rfl | ⟨c, u, rfl, rfl⟩
  · cases hrec.symm.trans hlisted
  · obtain rfl : { cause := c, position := u.icount } = record := Option.some.inj hrec
    exact ⟨c, hp, hlisted⟩

end

/-! ## A run for each listed fault -/

section
variable {i : Instr}

/-- Both stacks full, at capacities of one byte and none. The byte on the data stack is 10, whose decimal text is longer
than the room its pop makes; a literal byte follows the first byte of the program, and a string of one byte stands at
MemoryPointer. -/
def stacksFull : State :=
  { State.start { Params.reference with dstackCap := 1, cstackCap := 0 } [0x01, 0x00] with
    ds := [10], mem := [(1, 0x01)] }

/-- A memory of no bytes, and an address to pop. -/
def noMemory : State :=
  { State.start { Params.reference with memSize := 0 } [] with ds := [0x00] }

/-- The value 2^31 on top of both stacks at Width 4, and A below B, so that each conditional jump is taken. -/
def farTarget : State :=
  { State.reset with
    width := .w4, regs := State.reset.regs.set .a 0, ds := [0x00, 0x00, 0x00, 0x80], cs := [0x00, 0x00, 0x00, 0x80] }

theorem canRaise_dataOverflow (hwf : i.wf = true) (h : (Cause.stackOverflow .data).RaisedBy i) :
    CanRaise i (· = .stackOverflow .data) := by
  simp only [Cause.RaisedBy, List.mem_cons, List.not_mem_nil, or_false] at h
  obtain ⟨lit, rfl⟩ | ⟨b, rfl⟩ | ⟨r, rfl⟩ | rfl | rfl | rfl | rfl | rfl | rfl | rfl := h
  case inl =>
    cases lit with
    | nil => cases hwf
    | cons b rest => exact ⟨stacksFull, _, _, rfl, rfl, rfl, rfl, rfl⟩
  case inr.inr.inl => cases r <;> exact ⟨stacksFull, _, _, rfl, rfl, rfl, rfl, rfl⟩
  all_goals exact ⟨stacksFull, _, _, rfl, rfl, rfl, rfl, rfl⟩

theorem canRaise_callOverflow (h : (Cause.stackOverflow .call).RaisedBy i) :
    CanRaise i (· = .stackOverflow .call) := by
  obtain rfl : i = .call := h
  exact ⟨stacksFull, _, _, rfl, rfl, rfl, rfl, rfl⟩

theorem canRaise_dataUnderflow (h : (Cause.stackUnderflow .data).RaisedBy i) :
    CanRaise i (· = .stackUnderflow .data) := by
  simp only [Cause.RaisedBy, List.mem_cons, List.not_mem_nil, or_false] at h
  obtain ⟨r, rfl⟩ | rfl | rfl | rfl | rfl | rfl | rfl | rfl | rfl | rfl := h
  case inl => cases r <;> exact ⟨State.reset, _, _, rfl, rfl, rfl, rfl, rfl⟩
  all_goals exact ⟨State.reset, _, _, rfl, rfl, rfl, rfl, rfl⟩

theorem canRaise_callUnderflow (h : (Cause.stackUnderflow .call).RaisedBy i) :
    CanRaise i (· = .stackUnderflow .call) := by
  obtain rfl : i = .ret := h
  exact ⟨State.reset, _, _, rfl, rfl, rfl, rfl, rfl⟩

theorem canRaise_memoryFault (h : i ∈ [Instr.setp, .mrb, .mrs, .mwb]) :
    CanRaise i (fun c => ∃ a, c = .memoryFault a) := by
  simp only [List.mem_cons, List.not_mem_nil, or_false] at h
  obtain rfl | rfl | rfl | rfl := h
  all_goals exact ⟨noMemory, _, _, rfl, rfl, rfl, rfl, ⟨_, rfl⟩⟩

theorem canRaise_truncatedLiteral (h : ∃ lit, i = .pushl lit) :
    CanRaise i (fun c => ∃ p, c = .truncatedLiteral p) := by
  obtain ⟨lit, rfl⟩ := h
  exact ⟨State.reset, _, _, rfl, rfl, rfl, rfl, ⟨_, rfl⟩⟩

theorem canRaise_targetOutOfRange (h : i ∈ [Instr.jng, .jne, .jmp, .call, .ret]) :
    CanRaise i (fun c => ∃ t, c = .targetOutOfRange t) := by
  simp only [List.mem_cons, List.not_mem_nil, or_false] at h
  obtain rfl | rfl | rfl | rfl | rfl := h
  all_goals exact ⟨farTarget, _, _, rfl, rfl, rfl, rfl, ⟨_, rfl⟩⟩

theorem canRaise_invalidOpcode (h : ∃ b, i = .invalid b) : CanRaise i (fun c => ∃ b, c = .invalidOpcode b) := by
  obtain ⟨b, rfl⟩ := h
  exact ⟨State.reset, _, _, rfl, rfl, rfl, rfl, ⟨b, rfl⟩⟩

theorem raisedBy_of_canRaise_eq {c : Cause} (h : CanRaise i (· = c)) : c.RaisedBy i := by
  obtain ⟨_, rfl, hi⟩ := raisedBy_of_canRaise h
  exact hi

theorem raisedBy_of_canRaise_kind {α : Type} {f : α → Cause} (h : CanRaise i (fun c => ∃ x, c = f x)) :
    ∃ x, (f x).RaisedBy i := by
  obtain ⟨_, ⟨x, rfl⟩, hi⟩ := raisedBy_of_canRaise h
  exact ⟨x, hi⟩

end

/-- Settles O49: no instruction raises a fault that is not listed for it, and each listed one has a run that raises
it. -/
theorem stackFaultsComeFromTheListedInstructions : Obligations.StackFaultsComeFromTheListedInstructions :=
  fun _ hwf =>
    ⟨⟨raisedBy_of_canRaise_eq, canRaise_dataOverflow hwf⟩,
    ⟨raisedBy_of_canRaise_eq, canRaise_callOverflow⟩,
    ⟨raisedBy_of_canRaise_eq, canRaise_dataUnderflow⟩,
    ⟨raisedBy_of_canRaise_eq, canRaise_callUnderflow⟩⟩

/-- Settles O50, as O49; of the four lists only that of InvalidOpcode depends on the value recorded with the kind. -/
theorem otherFaultsComeFromTheListedInstructions : Obligations.OtherFaultsComeFromTheListedInstructions :=
  fun _ _ =>
    ⟨⟨fun h => (raisedBy_of_canRaise_kind h).elim fun _ hi => hi, canRaise_memoryFault⟩,
    ⟨fun h => (raisedBy_of_canRaise_kind h).elim fun _ hi => hi, canRaise_truncatedLiteral⟩,
    ⟨fun h => (raisedBy_of_canRaise_kind h).elim fun _ hi => hi, canRaise_targetOutOfRange⟩,
    ⟨raisedBy_of_canRaise_kind, canRaise_invalidOpcode⟩⟩

end Sys2Proof.Machine
end
